-- ==== Sys2Proof/Word.lean ====
section
/-! DEFINITION. The words of this hardware: bus addresses, data bytes, operation words, and the type of memory. -/

namespace Sys2Proof

/-- A data byte; every bus transaction moves exactly one (R26, D13). -/
abbrev Byte := BitVec 8

/-- A bus address, exactly 16 bits wide (R26, D13). -/
abbrev Addr := BitVec 16

/-- An operation word: 26 bits, `K` in 25:24, `A` in 23:8, `D` in 7:0 (R44). -/
abbrev Word := BitVec 26

/-- Memory: pairs of an offset and a byte. In canonical form (`Memory.Wf`, Machine/Ops.lean) the
offsets strictly rise and no listed byte is 0x00, which is what an unlisted offset reads as. -/
abbrev Memory := List Host.Cell

end Sys2Proof
end

