-- ==== Sys2Proof/Syntax.lean ====
section
/-! DEFINITION. The operations of the controller as syntax: one constructor for each row of
spec/opcode_table.json (R47, R48, R49). -/

namespace Sys2Proof

/-- One operation. `a` is the bus address `A` and `d` the data byte `D` of the operation word. A read
carries no data byte and a host operation neither, because those fields are ignored (R46). -/
inductive Instr where
  /-- `WR_RAMG` (R59): write to the RAM gate, 0x0000-0x1FFF. -/
  | wrRamg (a : Addr) (d : Byte)
  /-- `WR_ROMB` (R60): write to the ROM bank selector, 0x2000-0x3FFF. -/
  | wrRomb (a : Addr) (d : Byte)
  /-- `WR_RAMB` (R61): write to the RAM bank selector, 0x4000-0x5FFF. -/
  | wrRamb (a : Addr) (d : Byte)
  /-- `WR_MODE` (R62): write to the mode register, 0x6000-0x7FFF. -/
  | wrMode (a : Addr) (d : Byte)
  /-- `WR_RAM` (R63): write to the RAM window, 0xA000-0xBFFF. -/
  | wrRam (a : Addr) (d : Byte)
  /-- `WR_NOP_8` (R64): write to 0x8000-0x9FFF. -/
  | wrNop8 (a : Addr) (d : Byte)
  /-- `WR_NOP_C` (R65): write to 0xC000-0xFFFF. -/
  | wrNopC (a : Addr) (d : Byte)
  /-- `RD_ROM0` (R67): read of the fixed bank, 0x0000-0x3FFF. -/
  | rdRom0 (a : Addr)
  /-- `RD_ROMX` (R68): read of the switchable bank, 0x4000-0x7FFF. -/
  | rdRomx (a : Addr)
  /-- `RD_OPEN_8` (R69): read of 0x8000-0x9FFF. -/
  | rdOpen8 (a : Addr)
  /-- `RD_RAM` (R70): read of the RAM window, 0xA000-0xBFFF. -/
  | rdRam (a : Addr)
  /-- `RD_C000` (R71): read of address 0xC000. -/
  | rdC000
  /-- `RD_OPEN_C` (R72): read of 0xC001-0xFFFF. -/
  | rdOpenC (a : Addr)
  /-- `SAVE_RAM` (R75): the host's SaveRAM. -/
  | saveRam
  /-- `LOAD_RAM` (R76): the host's LoadRAM. -/
  | loadRam
  deriving DecidableEq, Repr

end Sys2Proof
end

