-- ==== Sys2Proof/WellFormed.lean ====
section
/-! DEFINITION. Which operations are well-formed: the address operand lies in the window of its row (R27). -/

namespace Sys2Proof

/-- The address lies between `lo` and `hi`, both included. -/
def inWindow (lo hi : Nat) (a : Addr) : Bool :=
  decide (lo ≤ a.toNat) && decide (a.toNat ≤ hi)

/-- The window each row gives its address operand (R27, and the "Operands" line of R59 to R72). -/
def Instr.wf : Instr → Bool
  | .wrRamg a _ => inWindow 0x0000 0x1FFF a
  | .wrRomb a _ => inWindow 0x2000 0x3FFF a
  | .wrRamb a _ => inWindow 0x4000 0x5FFF a
  | .wrMode a _ => inWindow 0x6000 0x7FFF a
  | .wrNop8 a _ => inWindow 0x8000 0x9FFF a
  | .wrRam a _ => inWindow 0xA000 0xBFFF a
  | .wrNopC a _ => inWindow 0xC000 0xFFFF a
  | .rdRom0 a => inWindow 0x0000 0x3FFF a
  | .rdRomx a => inWindow 0x4000 0x7FFF a
  | .rdOpen8 a => inWindow 0x8000 0x9FFF a
  | .rdRam a => inWindow 0xA000 0xBFFF a
  | .rdC000 => true
  | .rdOpenC a => inWindow 0xC001 0xFFFF a
  | .saveRam => true
  | .loadRam => true

end Sys2Proof
end

