-- ==== Sys2Proof/Decode.lean ====
section
/-! DEFINITION. The decoder of operation words (R44 to R49), total on every word, and the encoder. -/

namespace Sys2Proof

/-! ### The fields of an operation word (R44) -/

/-- `K`, word bits 25:24: the kind of operation. -/
def Word.kind (w : Word) : BitVec 2 := w.extractLsb' 24 2

/-- `A`, word bits 23:8: the bus address. -/
def Word.addr (w : Word) : Addr := w.extractLsb' 8 16

/-- `D`, word bits 7:0: the data byte of a write. -/
def Word.data (w : Word) : Byte := w.extractLsb' 0 8

/-- `word = (K << 24) | (A << 8) | D` (R44). -/
def Word.pack (k : BitVec 2) (a : Addr) (d : Byte) : Word :=
  (k.setWidth 26 <<< 24) ||| (a.setWidth 26 <<< 8) ||| d.setWidth 26

/-! ### Decoding -/

/-- A write decodes by `A[15:13]` (R47); the last row takes both 110 and 111. -/
def decodeWrite (a : Addr) (d : Byte) : Instr :=
  let top := a.extractLsb' 13 3
  if top = 0b000#3 then .wrRamg a d
  else if top = 0b001#3 then .wrRomb a d
  else if top = 0b010#3 then .wrRamb a d
  else if top = 0b011#3 then .wrMode a d
  else if top = 0b100#3 then .wrNop8 a d
  else if top = 0b101#3 then .wrRam a d
  else .wrNopC a d

/-- A read decodes in this order, the first match wins (R48); `RD_C000` stands ahead of `RD_OPEN_C`. -/
def decodeRead (a : Addr) : Instr :=
  if a.extractLsb' 14 2 = 0b00#2 then .rdRom0 a
  else if a.extractLsb' 14 2 = 0b01#2 then .rdRomx a
  else if a.extractLsb' 13 3 = 0b100#3 then .rdOpen8 a
  else if a.extractLsb' 13 3 = 0b101#3 then .rdRam a
  else if a = 0xC000#16 then .rdC000
  else .rdOpenC a

/-- The kinds of R45: 00 read, 01 write, 10 SaveRAM, 11 LoadRAM (R49). Ignored fields take any value
(R46), so every word decodes to exactly one operation. -/
def decode (w : Word) : Instr :=
  if w.kind = 0b00#2 then decodeRead w.addr
  else if w.kind = 0b01#2 then decodeWrite w.addr w.data
  else if w.kind = 0b10#2 then .saveRam
  else .loadRam

/-- Why a number is not an operation. -/
inductive DecodeError where
  /-- The number has a bit above bit 25: it is no operation word (R44). -/
  | notAnOperationWord (value : Nat)
  deriving DecidableEq, Repr

/-- Decode a number: rejected by name unless it is a 26-bit operation word. -/
def decodeNumber (n : Nat) : Except DecodeError Instr :=
  if n < 2 ^ 26 then .ok (decode (BitVec.ofNat 26 n)) else .error (.notAnOperationWord n)

/-- The host's view of the decoder: the operation whose word's bits are `w`, with every bit above
`nbits` zero. -/
def decodeTableWord (nbits w : Nat) : Option Instr :=
  match decodeNumber (w % 2 ^ nbits) with
  | .ok i => some i
  | .error _ => none

/-! ### Encoding -/

/-- The word of an operation, from the tables of R47 to R49. An encoder writes zero in every ignored
field (R46). -/
def encode : Instr → Word
  | .wrRamg a d | .wrRomb a d | .wrRamb a d | .wrMode a d => Word.pack 0b01#2 a d
  | .wrRam a d | .wrNop8 a d | .wrNopC a d => Word.pack 0b01#2 a d
  | .rdRom0 a | .rdRomx a | .rdOpen8 a | .rdRam a | .rdOpenC a => Word.pack 0b00#2 a 0#8
  | .rdC000 => Word.pack 0b00#2 0xC000#16 0#8
  | .saveRam => Word.pack 0b10#2 0#16 0#8
  | .loadRam => Word.pack 0b11#2 0#16 0#8

/-! ### The opcode map of 30_encoding.md section 6 -/

/-- One row of the opcode map: a word matches it when `word & mask == value`. -/
structure OpcodeRow where
  mnemonic : String
  value : Word
  mask : Word
  deriving DecidableEq, Repr

/-- The 15 rows, in the table's order; for reads the order is the decode priority. -/
def opcodeMap : List OpcodeRow :=
  [⟨"WR_RAMG", 0x1000000, 0x3E00000⟩, ⟨"WR_ROMB", 0x1200000, 0x3E00000⟩,
   ⟨"WR_RAMB", 0x1400000, 0x3E00000⟩, ⟨"WR_MODE", 0x1600000, 0x3E00000⟩,
   ⟨"WR_RAM", 0x1A00000, 0x3E00000⟩, ⟨"WR_NOP_8", 0x1800000, 0x3E00000⟩,
   ⟨"WR_NOP_C", 0x1C00000, 0x3C00000⟩, ⟨"RD_ROM0", 0x0000000, 0x3C00000⟩,
   ⟨"RD_ROMX", 0x0400000, 0x3C00000⟩, ⟨"RD_OPEN_8", 0x0800000, 0x3E00000⟩,
   ⟨"RD_RAM", 0x0A00000, 0x3E00000⟩, ⟨"RD_C000", 0x0C00000, 0x3FFFF00⟩,
   ⟨"RD_OPEN_C", 0x0C00000, 0x3C00000⟩, ⟨"SAVE_RAM", 0x2000000, 0x3000000⟩,
   ⟨"LOAD_RAM", 0x3000000, 0x3000000⟩]

/-- "A word matches a row when `(word & mask) == match`" (30_encoding.md section 6). -/
def OpcodeRow.matches (r : OpcodeRow) (w : Word) : Bool := (w &&& r.mask) == r.value

/-- The row the opcode map gives a word: the first that matches. -/
def opcodeRow (w : Word) : Option OpcodeRow := opcodeMap.find? (·.matches w)

/-- The mnemonic of an operation's row (R47 to R49). -/
def Instr.mnemonic : Instr → String
  | .wrRamg _ _ => "WR_RAMG"
  | .wrRomb _ _ => "WR_ROMB"
  | .wrRamb _ _ => "WR_RAMB"
  | .wrMode _ _ => "WR_MODE"
  | .wrRam _ _ => "WR_RAM"
  | .wrNop8 _ _ => "WR_NOP_8"
  | .wrNopC _ _ => "WR_NOP_C"
  | .rdRom0 _ => "RD_ROM0"
  | .rdRomx _ => "RD_ROMX"
  | .rdOpen8 _ => "RD_OPEN_8"
  | .rdRam _ => "RD_RAM"
  | .rdC000 => "RD_C000"
  | .rdOpenC _ => "RD_OPEN_C"
  | .saveRam => "SAVE_RAM"
  | .loadRam => "LOAD_RAM"

end Sys2Proof
end

