-- ==== Sys2Proof/Config.lean ====
section
/-! DEFINITION. What is fixed when a controller is constructed (R5, R9, R100), the cartridge that
State.reset is constructed from, and the free value the spec leaves open (D9). -/

namespace Sys2Proof

/-- The ROM image as the controller keeps it: its length in bytes and its non-zero bytes, by offset
(R10). An offset below `length` that is not listed holds 0x00. Log entry 2. -/
structure RomImage where
  length : Nat
  cells : Memory
  deriving DecidableEq, Repr

/-- The configuration `cfg` (R9, R25): set once by construction and never written again. `N` and
`ramPresent` are derived from it in Machine/Operands.lean. -/
structure Config where
  rom : RomImage
  romSize : Nat
  ramSize : Nat
  battery : Bool
  deriving DecidableEq, Repr

/-- The four construction inputs (R100): the full ROM byte image, the declared ROM size, the declared
RAM size and the battery-present flag. -/
structure Construction where
  rom : List Byte
  romSize : Nat
  ramSize : Nat
  battery : Bool
  deriving DecidableEq, Repr

/-- DESIGN CHOICE (log entry 3): the cartridge State.reset is constructed from. The sizes and the
battery are those of the spec's CFG_A; the ROM image is blank, every byte 0x00. -/
def Config.blankCartridge : Construction where
  rom := List.replicate 0x10000 0#8
  romSize := 0x10000
  ramSize := 0x8000
  battery := true

/-- FREE VALUE (D9, U4; log entry 5): what the host's sink holds after a failed write. The argument is
the model's count of such draws. -/
opaque Config.freeSink : Nat → List Byte

end Sys2Proof
end

