-- ==== Sys2Proof/Machine/State.lean ====
section
/-! DEFINITION. The state of the machine (10_state.md R9 to R25), the reasons a step can stop
(60_exceptions.md R82 to R89), and the state after reset (70_reset_and_hazards.md R102). -/

namespace Sys2Proof.Machine

/-- The three construction preconditions, in the order of R101. -/
inductive Precondition where
  /-- `romSize` is a multiple of 0x4000. -/
  | romSizeMultiple
  /-- `romSize >= 0x8000`. -/
  | romSizeMinimum
  /-- `len(rom) >= romSize`. -/
  | romLongEnough
  deriving DecidableEq, Repr

/-- The faults of R83: the model's "no meaning", for inputs the source gives no value for. -/
inductive Fault where
  /-- `CONSTRUCT_REFUSED`, 0x81 (R87): raised by construction only, with every failed precondition.
  Safe: no controller exists where the hardware might have made one (D6). -/
  | constructRefused (failed : List Precondition)
  /-- `ROM_BANK_OUT_OF_RANGE`, 0x82 (R88): raised by `RD_ROMX` when `selectedROMBank >= N`, with the
  selector and `N`. Safe: it stops where the chip reads some byte (D3). -/
  | romBankOutOfRange (sel : BitVec 5) (n : Nat)
  /-- `RAM_READ_PAST_BANK`, 0x83 (R89): raised by `RD_C000` when RAM is present and enabled, with the
  address. Safe: it stops where the chip reads some byte (D4). -/
  | ramReadPastBank (addr : Addr)
  deriving DecidableEq, Repr

/-- The refusals. -/
inductive Refusal where
  /-- Raised by `exec` for an operation that has no meaning in the model yet; every operation of this
  hardware has one, so nothing raises it. Safe. -/
  | notModelled (mnemonic : String)
  deriving DecidableEq, Repr

/-- A storage error `e` of the host. It is opaque: the controller never inspects it and hands it back
unchanged (R78). Errors are told apart by a number and carry nothing else. -/
structure StorageError where
  id : Nat
  deriving DecidableEq, Repr

/-- The write outcome the host supplies to a SaveRAM: `saveOutcome` (R78, D9). -/
inductive SaveOutcome where
  | ok
  | ioError (e : StorageError)
  deriving DecidableEq, Repr

/-- The source the host supplies to a LoadRAM: `loadSource` (R78, D9). -/
inductive LoadSource where
  | absent
  | bytes (bs : List Byte)
  | ioError (e : StorageError)
  deriving DecidableEq, Repr

/-- The operands outside the word, "supplied by the host with the operation" (R45). -/
structure HostOperands where
  saveOutcome : SaveOutcome
  loadSource : LoadSource
  deriving DecidableEq, Repr

/-- One issued operation: its word (R44) and the host's operands (R45). A bus operation ignores the
operands. -/
structure Request where
  word : Word
  host : HostOperands
  deriving DecidableEq, Repr

/-- The errors of R83: values handed back to the caller, not faults. -/
inductive OpError where
  /-- `MALFORMED_SAVE`, 0x01 (R90), with the length of the source in bytes. -/
  | malformedSave (length : Nat)
  /-- `STORAGE_IO`, 0x02 (R91), with the storage error unchanged. -/
  | storageIo (e : StorageError)
  deriving DecidableEq, Repr

/-- The result `r` of an operation (R8): a byte for a bus read, nothing for a bus write, `Ok` or `Err`
for a host operation. -/
inductive OpResult where
  | nothing
  | byte (b : Byte)
  | ok
  | err (e : OpError)
  deriving DecidableEq, Repr

/-- Whether the machine runs or has faulted (R25, R84). -/
inductive MachineStatus where
  | running
  | faulted (f : Fault)
  deriving DecidableEq, Repr

/-- The state. The first seven fields are the spec's (R25). The last five are the model's own: what the
controller hands out and what its two agents supply (log entries 4, 5, 6 and 7). -/
structure State where
  /-- The configuration `cfg` (R9). No operation writes it. -/
  cfg : Config
  /-- The ROM bank selector, 5 bits (R12). -/
  selectedROMBank : BitVec 5
  /-- The RAM bank selector, 2 bits (R13). -/
  selectedRAMBank : BitVec 2
  /-- The RAM gate (R14). -/
  ramEnabled : Bool
  /-- The banking mode, 1 bit (R15). -/
  mode : BitVec 1
  /-- The 4 RAM banks of 0x2000 bytes (R19); byte `off` of bank `b` lies at `b*0x2000 + off`. -/
  ramBanks : Memory
  /-- `Running` or `Faulted(code, info)` (R25, R84). -/
  machine : MachineStatus
  /-- The result of the latest operation (R8). -/
  result : OpResult
  /-- The host's operands of the latest operation taken (R45, R78). -/
  host : HostOperands
  /-- What the host's sink holds (R75, R78). -/
  sink : List Byte
  /-- How many free values have been drawn so far (`Config.freeSink`, D9). -/
  freeDraws : Nat
  /-- The operations issued and not yet taken, the earliest first (R21, R95). -/
  pending : List Request
  deriving DecidableEq, Repr

/-- The machine right after reset. The only reset is construction (R100); this is the state that
constructing `Config.blankCartridge` leaves, at the values of R102. -/
def State.reset : State where
  cfg := { rom := { length := 0x10000, cells := [] }, romSize := 0x10000, ramSize := 0x8000, battery := true }
  selectedROMBank := 0#5
  selectedRAMBank := 0#2
  ramEnabled := true
  mode := 0#1
  ramBanks := []
  machine := .running
  result := .nothing
  host := { saveOutcome := .ok, loadSource := .absent }
  sink := []
  freeDraws := 0
  pending := []

end Sys2Proof.Machine
end

