-- ==== Sys2Proof/Machine/Operands.lean ====
section
/-! DEFINITION. What the operations compute from their operands and from the configuration: the data
decodes (R51 to R54), the window offsets (R50), the derived configuration values (R9) and the places
where bytes lie (R11, R19, R29). All arithmetic is on natural numbers (R6, R56). -/

namespace Sys2Proof

/-- `N = romSize / 0x4000`, the number of entries of `romBanks` (R9). -/
def Config.bankCount (c : Config) : Nat := c.romSize / 0x4000

/-- `ramPresent = (ramSize > 0)` (R9). -/
def Config.ramPresent (c : Config) : Bool := decide (0 < c.ramSize)

end Sys2Proof

namespace Sys2Proof.Machine

/-! ### Data decodes -/

/-- `enable = (D[3:0] == 0xA)`; `D[7:4]` are ignored (R51). -/
def gateEnable (d : Byte) : Bool := d.extractLsb' 0 4 == 0xA#4

/-- `sel = D & 0x1F = D[4:0]` (R52). -/
def romSelect (d : Byte) : BitVec 5 := d.extractLsb' 0 5

/-- `sel = D & 0x03 = D[1:0]` (R53). -/
def ramSelect (d : Byte) : BitVec 2 := d.extractLsb' 0 2

/-- `m = D[0]` (R54). -/
def modeSelect (d : Byte) : BitVec 1 := d.extractLsb' 0 1

/-! ### Window offsets (R50) -/

/-- The offset of an address of the ROMX window: `A - 0x4000`. -/
def romxOffset (a : Addr) : Nat := a.toNat - 0x4000

/-- The offset of an address of the RAM window: `A - 0xA000` (R33). -/
def ramOffset (a : Addr) : Nat := a.toNat - 0xA000

/-! ### Where bytes lie -/

/-- The ROM offset of byte `off` of `romBanks[k]`: entry 0 holds physical bank 1, entry `k >= 1` holds
physical bank `k` (R11, D1). -/
def romBankOffset (k off : Nat) : Nat := (if k = 0 then 0x4000 else k * 0x4000) + off

/-- The place of `ramBanks[b][off]` in the RAM, which is also its place in the blob (R19, R74). -/
def ramIndex (b off : Nat) : Nat := b * 0x2000 + off

/-- The blob is exactly 32768 bytes, whatever `ramSize` declares (R74). -/
abbrev blobSize : Nat := 32768

end Sys2Proof.Machine
end

