-- ==== Sys2Proof/Machine/Flags.lean ====
section
/-! DEFINITION. The conditions the operations test, and the outcome codes. This hardware has no status
flags, condition codes or predicates, and no operation sets a flag (R23); these conditions are computed
from the configuration and the registers each time. -/

namespace Sys2Proof.Machine

/-- `RamAccessible(cfg, st) = cfg.ramPresent and st.ramEnabled` (R30). -/
def State.ramAccessible (s : State) : Bool := s.cfg.ramPresent && s.ramEnabled

/-- The condition under which a gate write is honoured: RAM is present and `mode == 1` (R59). -/
def State.gateWritable (s : State) : Bool := s.cfg.ramPresent && s.mode == 1#1

/-- `RamBankSel(st) = if st.mode == 1 then st.selectedRAMBank else 0` (R32). -/
def State.ramBankSel (s : State) : Nat := if s.mode = 1#1 then s.selectedRAMBank.toNat else 0

/-- `st.selectedROMBank < N`: the selected entry of `romBanks` exists (R29). -/
def State.romBankExists (s : State) : Bool := decide (s.selectedROMBank.toNat < s.cfg.bankCount)

/-- `Persist(cfg) = cfg.ramPresent and cfg.battery` (R73). -/
def State.persist (s : State) : Bool := s.cfg.ramPresent && s.cfg.battery

/-! ### Outcome codes (R83, D15) -/

/-- The number of a fault. -/
def Fault.code : Fault → Byte
  | .constructRefused _ => 0x81
  | .romBankOutOfRange _ _ => 0x82
  | .ramReadPastBank _ => 0x83

/-- The number of an error. -/
def OpError.code : OpError → Byte
  | .malformedSave _ => 0x01
  | .storageIo _ => 0x02

/-- The number of a result: `OK` unless it is an error. -/
def OpResult.code : OpResult → Byte
  | .nothing => 0x00
  | .byte _ => 0x00
  | .ok => 0x00
  | .err e => e.code

end Sys2Proof.Machine
end

