-- ==== Sys2Proof/Machine/Ops.lean ====
section
/-! DEFINITION. The shared operations over memory, ROM, RAM, the registers and the machine, from which
every meaning is made. -/

namespace Sys2Proof

/-! ### Memory -/

/-- The byte at an offset. An unlisted offset reads as 0x00: RAM is zero-initialized (R19), and a ROM
image lists its non-zero bytes. -/
def Memory.read : Memory → Nat → Byte
  | [], _ => 0#8
  | (k, b) :: m, a => if k = a then b else Memory.read m a

/-- The memory without the entry of offset `a`. -/
def Memory.erase (m : Memory) (a : Nat) : Memory := m.filter (fun c => c.1 != a)

/-- The memory with an entry put ahead of the first entry of a higher offset. -/
def Memory.insert : Memory → Nat → Byte → Memory
  | [], a, v => [(a, v)]
  | c :: m, a, v => if a < c.1 then (a, v) :: c :: m else c :: Memory.insert m a v

/-- Write one byte, keeping the canonical form: writing 0x00 only removes the entry. -/
def Memory.write (m : Memory) (a : Nat) (v : Byte) : Memory :=
  if v = 0#8 then Memory.erase m a else Memory.insert (Memory.erase m a) a v

/-- The memory that holds a list of bytes from offset `i` on. -/
def Memory.ofBytesFrom : Nat → List Byte → Memory
  | _, [] => []
  | i, b :: bs => if b = 0#8 then Memory.ofBytesFrom (i + 1) bs else (i, b) :: Memory.ofBytesFrom (i + 1) bs

/-- The memory that holds a list of bytes from offset 0 on. -/
def Memory.ofBytes (bs : List Byte) : Memory := Memory.ofBytesFrom 0 bs

/-- The canonical form: strictly rising offsets, and no entry equal to what an unlisted offset reads as. -/
abbrev Memory.Wf (m : Memory) : Prop := m.Pairwise (fun c c' => c.1 < c'.1) ∧ ∀ c ∈ m, c.2 ≠ 0#8

/-- Every entry lies below `n`. -/
abbrev Memory.Below (n : Nat) (m : Memory) : Prop := ∀ c ∈ m, c.1 < n

/-- The ROM image of a byte sequence. -/
def RomImage.ofBytes (bs : List Byte) : RomImage := { length := bs.length, cells := Memory.ofBytes bs }

end Sys2Proof

namespace Sys2Proof.Machine

/-! ### ROM: `Bank0` and `RomBank` (R7, R10, R11) -/

/-- `cfg.rom[o]`. -/
def State.romByte (s : State) (o : Nat) : Byte := Memory.read s.cfg.rom.cells o

/-- `Bank0(off) = cfg.rom[off]` for `off < 0x4000` (R10). -/
def State.bank0 (s : State) (off : Nat) : Byte := s.romByte off

/-- `RomBank(k, off)`: byte `off` of `romBanks[k]` (R11). -/
def State.romBank (s : State) (k off : Nat) : Byte := s.romByte (romBankOffset k off)

/-! ### RAM: `RamRead` and `RamWrite` (R7, R19) -/

/-- `RamRead(b, off) = st.ramBanks[b][off]`. -/
def State.ramRead (s : State) (b off : Nat) : Byte := Memory.read s.ramBanks (ramIndex b off)

/-- `RamWrite(b, off, v)`: `st.ramBanks[b][off] <- v`. -/
def State.ramWrite (s : State) (b off : Nat) (v : Byte) : State :=
  { s with ramBanks := Memory.write s.ramBanks (ramIndex b off) v }

/-- The blob: the 4 RAM banks in bank order, each bank's bytes in offset order (R74).
Proofs use its laws and never compute its 32768 bytes. -/
@[irreducible] def State.ramImage (s : State) : List Byte :=
  (List.range 4).flatMap fun b => (List.range 0x2000).map fun off => s.ramRead b off

/-- Replace all four banks by the bytes of a blob (R76). -/
def State.loadRamImage (s : State) (bs : List Byte) : State := { s with ramBanks := Memory.ofBytes bs }

/-! ### Registers: the one writer of each (R16) -/

def State.setRamEnabled (s : State) (v : Bool) : State := { s with ramEnabled := v }

def State.setSelectedROMBank (s : State) (v : BitVec 5) : State := { s with selectedROMBank := v }

def State.setSelectedRAMBank (s : State) (v : BitVec 2) : State := { s with selectedRAMBank := v }

def State.setMode (s : State) (v : BitVec 1) : State := { s with mode := v }

/-! ### The host's sink (R75, R78) -/

/-- `sink.write(blob)` that succeeds: the sink now holds exactly the blob. -/
def State.setSink (s : State) (bs : List Byte) : State := { s with sink := bs }

/-- `sink.write(blob)` that fails: the sink holds any value (D9), a fresh free value. -/
def State.spoilSink (s : State) : State :=
  { s with sink := Config.freeSink s.freeDraws, freeDraws := s.freeDraws + 1 }

/-! ### Ending an operation (R8) -/

/-- `Next(st', r)`: the operation completes with result `r`. -/
def State.done (s : State) (r : OpResult) : Host.Outcome State Fault Refusal := .next { s with result := r }

/-- `return Err(code, info)`: an error is a result, not a fault (R86). -/
def State.fail (s : State) (e : OpError) : Host.Outcome State Fault Refusal := s.done (.err e)

/-- `raise Fault(code, info)` (R84): the one way an operation faults. It changes no state. This hardware
has no trap: no vector, no handler and no saved state (R82), and nothing returns from a fault (R93). -/
def raiseFault (f : Fault) : Host.Outcome State Fault Refusal := .fault f

/-- The machine that an outcome leaves behind (R84): the next state, or the old state with the machine
`Faulted`; a refusal leaves the state alone. -/
def State.after (s : State) : Host.Outcome State Fault Refusal → State
  | .next t => t
  | .fault f => { s with machine := .faulted f }
  | .refused _ => s

/-! ### Taking the next operation (R21, R95) -/

/-- The earliest issued operation, decoded, and the state with it taken and its host operands in place;
none when nothing is issued. -/
def State.takeOperation (s : State) : Option (Instr × State) :=
  match s.pending with
  | [] => none
  | r :: rest => some (decode r.word, { s with pending := rest, host := r.host })

/-- Issue an operation behind those already issued. -/
def State.issue (s : State) (r : Request) : State := { s with pending := s.pending ++ [r] }

/-- Issue an operation ahead of those already issued, with the host's operands as they stand; nothing is
issued for a number that is no operation word. -/
def State.issueFirst (s : State) (n : Nat) : State :=
  if n < 2 ^ 26 then { s with pending := { word := BitVec.ofNat 26 n, host := s.host } :: s.pending }
  else { s with pending := [] }

end Sys2Proof.Machine
end

