-- ==== Sys2Proof/Machine/BusReads.lean ====
section
/-! DEFINITION. The six bus reads (41_bus_reads.md R66 to R72). A bus read hands back one byte and
changes no state, or raises one of two faults (R66). -/

namespace Sys2Proof.Machine

/-- `RD_ROM0` (R67): `return Bank0(A)`, in every state. -/
def execRdRom0 (a : Addr) (s : State) : Host.Outcome State Fault Refusal :=
  s.done (.byte (s.bank0 a.toNat))

/-- `RD_ROMX` (R68): `return RomBank(k, A - 0x4000)` for the selector `k`; `ROM_BANK_OUT_OF_RANGE` when
`k >= N` (R88, D3). -/
def execRdRomx (a : Addr) (s : State) : Host.Outcome State Fault Refusal :=
  if s.romBankExists then s.done (.byte (s.romBank s.selectedROMBank.toNat (romxOffset a)))
  else raiseFault (.romBankOutOfRange s.selectedROMBank s.cfg.bankCount)

/-- `RD_OPEN_8` (R69): `return 0x00`. -/
def execRdOpen8 (_a : Addr) (s : State) : Host.Outcome State Fault Refusal :=
  s.done (.byte 0x00#8)

/-- `RD_RAM` (R70): the byte of the bank the multiplexer selects when RAM is accessible; otherwise 0x00. -/
def execRdRam (a : Addr) (s : State) : Host.Outcome State Fault Refusal :=
  s.done (.byte (if s.ramAccessible then s.ramRead s.ramBankSel (ramOffset a) else 0x00#8))

/-- `RD_C000` (R71): `RAM_READ_PAST_BANK` when RAM is accessible (R89, D4); otherwise 0x00. -/
def execRdC000 (s : State) : Host.Outcome State Fault Refusal :=
  if s.ramAccessible then raiseFault (.ramReadPastBank 0xC000#16) else s.done (.byte 0x00#8)

/-- `RD_OPEN_C` (R72): `return 0x00`. -/
def execRdOpenC (_a : Addr) (s : State) : Host.Outcome State Fault Refusal :=
  s.done (.byte 0x00#8)

end Sys2Proof.Machine
end

