-- ==== Sys2Proof/Machine/BusWrites.lean ====
section
/-! DEFINITION. The seven bus writes (40_bus_writes.md R58 to R65). A bus write has no result and never
faults (R58). -/

namespace Sys2Proof.Machine

/-- `WR_RAMG` (R59): the gate takes the decoded value when RAM is present and `mode == 1`; otherwise no
state changes. -/
def execWrRamg (_a : Addr) (d : Byte) (s : State) : Host.Outcome State Fault Refusal :=
  (if s.gateWritable then s.setRamEnabled (gateEnable d) else s).done .nothing

/-- `WR_ROMB` (R60): `st.selectedROMBank <- D & 0x1F`, in either mode and even when the bank is missing. -/
def execWrRomb (_a : Addr) (d : Byte) (s : State) : Host.Outcome State Fault Refusal :=
  (s.setSelectedROMBank (romSelect d)).done .nothing

/-- `WR_RAMB` (R61): `st.selectedRAMBank <- D & 0x03`, in both modes, with or without RAM. -/
def execWrRamb (_a : Addr) (d : Byte) (s : State) : Host.Outcome State Fault Refusal :=
  (s.setSelectedRAMBank (ramSelect d)).done .nothing

/-- `WR_MODE` (R62): `st.mode <- D[0]`. -/
def execWrMode (_a : Addr) (d : Byte) (s : State) : Host.Outcome State Fault Refusal :=
  (s.setMode (modeSelect d)).done .nothing

/-- `WR_RAM` (R63): store the byte in the bank the multiplexer selects when RAM is accessible; otherwise
the write "is discarded silently". -/
def execWrRam (a : Addr) (d : Byte) (s : State) : Host.Outcome State Fault Refusal :=
  (if s.ramAccessible then s.ramWrite s.ramBankSel (ramOffset a) d else s).done .nothing

/-- `WR_NOP_8` (R64): no state changes. -/
def execWrNop8 (_a : Addr) (_d : Byte) (s : State) : Host.Outcome State Fault Refusal :=
  s.done .nothing

/-- `WR_NOP_C` (R65): no state changes, at 0xC000 too. -/
def execWrNopC (_a : Addr) (_d : Byte) (s : State) : Host.Outcome State Fault Refusal :=
  s.done .nothing

end Sys2Proof.Machine
end

