-- ==== Sys2Proof/Machine/Persistence.lean ====
section
/-! DEFINITION. The two host operations (42_persistence.md R73 to R81). The host's operands stand in
`host`; every outcome is a result, and the order of the tests is R92's. -/

namespace Sys2Proof.Machine

/-- `SAVE_RAM` (R75): no work unless `Persist` holds (D7); else hand the blob to the sink, and report a
failed write with the storage error unchanged (R91). -/
def execSaveRam (s : State) : Host.Outcome State Fault Refusal :=
  if s.persist then
    match s.host.saveOutcome with
    | .ok => (s.setSink s.ramImage).done .ok
    | .ioError e => s.spoilSink.fail (.storageIo e)
  else s.done .ok

/-- `LOAD_RAM` (R76): no work unless `Persist` holds (D7); an absent source is no error and changes
nothing (D8); a failed read is `STORAGE_IO` (R91); a source of the wrong length is `MALFORMED_SAVE`
(R90); otherwise all 32768 bytes are replaced at once. -/
def execLoadRam (s : State) : Host.Outcome State Fault Refusal :=
  if s.persist then
    match s.host.loadSource with
    | .absent => s.done .ok
    | .ioError e => s.fail (.storageIo e)
    | .bytes bs =>
      if bs.length = blobSize then (s.loadRamImage bs).done .ok
      else s.fail (.malformedSave bs.length)
  else s.done .ok

end Sys2Proof.Machine
end

