-- ==== Sys2Proof/Machine/Dispatch.lean ====
section
/-! DEFINITION. The meaning of every operation: one arm per constructor of Instr. -/

namespace Sys2Proof.Machine

def exec (i : Instr) (s : State) : Host.Outcome State Fault Refusal :=
  match i with
  | .wrRamg a d => Sys2Proof.Machine.execWrRamg a d s
  | .wrRomb a d => Sys2Proof.Machine.execWrRomb a d s
  | .wrRamb a d => Sys2Proof.Machine.execWrRamb a d s
  | .wrMode a d => Sys2Proof.Machine.execWrMode a d s
  | .wrRam a d => Sys2Proof.Machine.execWrRam a d s
  | .wrNop8 a d => Sys2Proof.Machine.execWrNop8 a d s
  | .wrNopC a d => Sys2Proof.Machine.execWrNopC a d s
  | .rdRom0 a => Sys2Proof.Machine.execRdRom0 a s
  | .rdRomx a => Sys2Proof.Machine.execRdRomx a s
  | .rdOpen8 a => Sys2Proof.Machine.execRdOpen8 a s
  | .rdRam a => Sys2Proof.Machine.execRdRam a s
  | .rdC000 => Sys2Proof.Machine.execRdC000 s
  | .rdOpenC a => Sys2Proof.Machine.execRdOpenC a s
  | .saveRam => Sys2Proof.Machine.execSaveRam s
  | .loadRam => Sys2Proof.Machine.execLoadRam s

end Sys2Proof.Machine
end

