-- ==== Sys2Proof/Machine/Step.lean ====
section
/-! DEFINITION. One step of the machine: one operation, atomic and complete (R37, R95, R110). -/

namespace Sys2Proof.Machine

/-- A faulted machine takes no step (R84). A running one takes the earliest issued operation and runs
it; when none is issued nothing happens, because the controller has no agent of its own (R95; log entry 4). -/
def step (s : State) : Host.Outcome State Fault Refusal :=
  match s.machine with
  | .faulted f => .fault f
  | .running =>
    match s.takeOperation with
    | none => .next s
    | some (i, t) => exec i t

/-- The state with the operation word of bits `w` issued ahead of everything, so that the next step runs
it; the host's operands are those that stand in `host`. -/
def State.withFetchWord (s : State) (nbits w : Nat) : State := s.issueFirst (w % 2 ^ nbits)

end Sys2Proof.Machine
end

