-- ==== Sys2Proof/Machine/Construction.lean ====
section
/-! DEFINITION. Construction, the controller's only reset (70_reset_and_hazards.md R100 to R102). It is
no operation of a controller: it is how the host makes one, so no step calls it. -/

namespace Sys2Proof.Machine

/-- Whether a construction input meets one precondition (R101). -/
def Precondition.holds (c : Construction) : Precondition → Bool
  | .romSizeMultiple => c.romSize % 0x4000 == 0
  | .romSizeMinimum => decide (0x8000 ≤ c.romSize)
  | .romLongEnough => decide (c.romSize ≤ c.rom.length)

/-- Every failed precondition, in the order of R101 (R87). -/
def failedPreconditions (c : Construction) : List Precondition :=
  [.romSizeMultiple, .romSizeMinimum, .romLongEnough].filter fun p => !p.holds c

/-- The configuration of a construction input (R102). -/
def configOf (c : Construction) : Config where
  rom := RomImage.ofBytes c.rom
  romSize := c.romSize
  ramSize := c.ramSize
  battery := c.battery

/-- The controller right after construction from a configuration: the reset values of R102. -/
def State.fresh (cfg : Config) : State where
  cfg := cfg
  selectedROMBank := 0#5
  selectedRAMBank := 0#2
  ramEnabled := cfg.ramPresent
  mode := 0#1
  ramBanks := []
  machine := .running
  result := .nothing
  host := { saveOutcome := .ok, loadSource := .absent }
  sink := []
  freeDraws := 0
  pending := []

/-- Construct a controller (R100): the reset state when every precondition holds, else
`CONSTRUCT_REFUSED` with the list of those that fail (R87, R92 item 4). -/
def construct (c : Construction) : Host.Outcome State Fault Refusal :=
  if failedPreconditions c = [] then .next (State.fresh (configOf c))
  else raiseFault (.constructRefused (failedPreconditions c))

end Sys2Proof.Machine
end

