-- ==== Sys2Proof/Safety.lean ====
section
/-! DEFINITION. The terms that claims use: the invariant of a constructed controller, runs, and what a
safe run is (R84: a claim about a run assumes that no fault is raised). -/

namespace Sys2Proof

/-- A configuration that construction accepts (R101), with its ROM image in canonical form. -/
abbrev Config.Valid (c : Config) : Prop :=
  c.romSize % 0x4000 = 0 ∧ 0x8000 ≤ c.romSize ∧ c.romSize ≤ c.rom.length ∧
    Memory.Wf c.rom.cells ∧ Memory.Below c.rom.length c.rom.cells

/-! ### Which row is a bus write, a bus read, a host operation (R45) -/

def Instr.isWrite : Instr → Bool
  | .wrRamg _ _ | .wrRomb _ _ | .wrRamb _ _ | .wrMode _ _ | .wrRam _ _ | .wrNop8 _ _ | .wrNopC _ _ => true
  | .rdRom0 _ | .rdRomx _ | .rdOpen8 _ | .rdRam _ | .rdC000 | .rdOpenC _ => false
  | .saveRam | .loadRam => false

def Instr.isRead : Instr → Bool
  | .wrRamg _ _ | .wrRomb _ _ | .wrRamb _ _ | .wrMode _ _ | .wrRam _ _ | .wrNop8 _ _ | .wrNopC _ _ => false
  | .rdRom0 _ | .rdRomx _ | .rdOpen8 _ | .rdRam _ | .rdC000 | .rdOpenC _ => true
  | .saveRam | .loadRam => false

end Sys2Proof

namespace Sys2Proof.Machine

/-- The invariant of a controller: its configuration is one construction accepts, its RAM is in canonical
form and lies in the 4 banks (R19), and without RAM the gate is closed and no RAM byte is set (R20, D5). -/
abbrev State.Inv (s : State) : Prop :=
  s.cfg.Valid ∧ Memory.Wf s.ramBanks ∧ Memory.Below 0x8000 s.ramBanks ∧
    (s.cfg.ramPresent = false → s.ramEnabled = false ∧ s.ramBanks = [])

/-- `s` is a state that `k` steps lead to from `s₀` with no fault on the way. -/
def Reaches (s₀ : State) (k : Nat) (s : State) : Prop := Sys2Proof.core.run k s₀ = .next s

/-- The next step neither faults nor is refused. -/
def State.StepsSafely (s : State) : Prop := ∃ t, step s = .next t

/-- The state with a single operation issued and nothing else pending. -/
def State.issuing (s : State) (w : Word) (h : HostOperands) : State := { s with pending := [{ word := w, host := h }] }

/-! ### The bus as its master sees it -/

/-- `Write(address, value)`: the state after this one bus write, if the machine completes it. -/
def State.busWrite (s : State) (a : Addr) (d : Byte) : Host.Outcome State Fault Refusal :=
  step (s.issuing (Word.pack 0b01#2 a d) s.host)

/-- `Read(address)`: the state after this one bus read, with the byte in `result`, if the machine
completes it. -/
def State.busRead (s : State) (a : Addr) : Host.Outcome State Fault Refusal :=
  step (s.issuing (Word.pack 0b00#2 a 0#8) s.host)

/-! ### What the agents see of an outcome (R8) -/

/-- What the caller of an operation is told: its result, the fault, or nothing for a refusal. -/
def observe : Host.Outcome State Fault Refusal → Option (Except Fault OpResult)
  | .next t => some (.ok t.result)
  | .fault f => some (.error f)
  | .refused _ => none

/-! ### Which pending operation writes a RAM byte (R19) -/

/-- The operation `i`, run in state `s`, is one of the two writers of `ramBanks[b][off]`: an accessible bus
write to its address, or a LoadRAM that succeeds. -/
def WritesRamByte (i : Instr) (s : State) (b off : Nat) : Prop :=
  (∃ a d, i = .wrRam a d ∧ s.ramAccessible = true ∧ s.ramBankSel = b ∧ ramOffset a = off) ∨
    (i = .loadRam ∧ s.persist = true ∧ ∃ bs, s.host.loadSource = .bytes bs ∧ bs.length = 32768)

/-- The step from `s` runs a writer of `ramBanks[b][off]`. -/
def StepWritesRamByte (s : State) (b off : Nat) : Prop :=
  ∃ i t, s.takeOperation = some (i, t) ∧ WritesRamByte i t b off

end Sys2Proof.Machine
end

