-- ==== Sys2Proof/Certificates/Slice0/Obligations.lean ====
section
/-! DEFINITION. What the model claims of the machine, one statement each. Record updates written out in a
statement name every field that may differ; every other field is unchanged. -/

open Sys2Proof
open Sys2Proof.Machine

/-! ### Construction and reset -/

/-- `State.reset` is what constructing the model's default cartridge leaves. The cartridge is the model's
choice (log entry 3). -/
def Obligations.ResetIsTheConstructedDefaultCartridge : Prop :=
  construct Config.blankCartridge = .next State.reset

/-- R101 and R102: construction succeeds when its three preconditions hold, and leaves the stated value in
every piece of state. The preconditions are the spec's decision D6, `mode = 0` is D2, the values without
RAM are D5, and a ROM longer than declared is D17. -/
def Obligations.ConstructionGivesTheResetValues : Prop :=
  ∀ c : Construction, c.romSize % 0x4000 = 0 → 0x8000 ≤ c.romSize → c.romSize ≤ c.rom.length →
    ∃ s, construct c = .next s ∧
      s.cfg.romSize = c.romSize ∧ s.cfg.ramSize = c.ramSize ∧ s.cfg.battery = c.battery ∧
      s.cfg.rom.length = c.rom.length ∧ (∀ o, s.romByte o = c.rom.getD o 0#8) ∧
      s.cfg.bankCount * 0x4000 = c.romSize ∧ (s.cfg.ramPresent = true ↔ 0 < c.ramSize) ∧
      s.selectedROMBank = 0#5 ∧ s.selectedRAMBank = 0#2 ∧ (s.ramEnabled = true ↔ 0 < c.ramSize) ∧ s.mode = 0#1 ∧
      (∀ b off, s.ramRead b off = 0#8) ∧ s.machine = .running

/-- R87 and R92(4): construction that fails a precondition faults, and the fault lists exactly the failed
ones. The refusal is the spec's decision D6. -/
def Obligations.RefusedConstructionListsEveryFailure : Prop :=
  ∀ c : Construction, ¬ (c.romSize % 0x4000 = 0 ∧ 0x8000 ≤ c.romSize ∧ c.romSize ≤ c.rom.length) →
    ∃ failed, construct c = .fault (.constructRefused failed) ∧
      (Precondition.romSizeMultiple ∈ failed ↔ c.romSize % 0x4000 ≠ 0) ∧
      (Precondition.romSizeMinimum ∈ failed ↔ c.romSize < 0x8000) ∧
      (Precondition.romLongEnough ∈ failed ↔ c.rom.length < c.romSize)

/-- Every controller that construction makes meets the invariant (R18 to R20, R101, R102). -/
def Obligations.ConstructedControllerMeetsInvariant : Prop :=
  ∀ (c : Construction) (s : State), construct c = .next s → s.Inv

/-- The invariant holds at reset. -/
def Obligations.ResetMeetsInvariant : Prop := State.reset.Inv

/-! ### Encoding and decoding -/

/-- R44 to R49: decoding the word of a well-formed operation gives the operation back, at every address of
its window and every data byte. The operation word is the spec's own representation (D10). -/
def Obligations.DecodeOfEncodeIsTheOperation : Prop :=
  ∀ i : Instr, i.wf = true → decode (encode i) = i

/-- R46: every one of the 2^26 words decodes to a well-formed operation, and encoding that operation gives
the word back with zero in every ignored field: `D` of a read, `A` and `D` of a host operation (D10). -/
def Obligations.EncodeOfDecodeClearsOnlyIgnoredFields : Prop :=
  ∀ w : Word, (decode w).wf = true ∧
    encode (decode w) =
      Word.pack w.kind (if w.kind = 0b00#2 ∨ w.kind = 0b01#2 then w.addr else 0#16)
        (if w.kind = 0b01#2 then w.data else 0#8)

/-- R46: words that differ only in ignored fields decode to the same operation (D10). -/
def Obligations.IgnoredFieldsDoNotMatter : Prop :=
  ∀ (a a' : Addr) (d d' : Byte),
    decode (Word.pack 0b00#2 a d) = decode (Word.pack 0b00#2 a d') ∧
    decode (Word.pack 0b10#2 a d) = decode (Word.pack 0b10#2 a' d') ∧
    decode (Word.pack 0b11#2 a d) = decode (Word.pack 0b11#2 a' d')

/-- R47: the write windows, as address ranges (the word is the spec's decision D10). -/
def Obligations.WritesDecodeByAddressRange : Prop :=
  ∀ (a : Addr) (d : Byte), decode (Word.pack 0b01#2 a d) =
    if a.toNat ≤ 0x1FFF then .wrRamg a d
    else if a.toNat ≤ 0x3FFF then .wrRomb a d
    else if a.toNat ≤ 0x5FFF then .wrRamb a d
    else if a.toNat ≤ 0x7FFF then .wrMode a d
    else if a.toNat ≤ 0x9FFF then .wrNop8 a d
    else if a.toNat ≤ 0xBFFF then .wrRam a d
    else .wrNopC a d

/-- R48: the read windows, as address ranges; 0xC000 is a row of its own (conflict C1;
the word is the spec's decision D10). -/
def Obligations.ReadsDecodeByAddressRange : Prop :=
  ∀ (a : Addr) (d : Byte), decode (Word.pack 0b00#2 a d) =
    if a.toNat ≤ 0x3FFF then .rdRom0 a
    else if a.toNat ≤ 0x7FFF then .rdRomx a
    else if a.toNat ≤ 0x9FFF then .rdOpen8 a
    else if a.toNat ≤ 0xBFFF then .rdRam a
    else if a.toNat = 0xC000 then .rdC000
    else .rdOpenC a

/-- 30_encoding.md section 6: the decoder gives every word the first row of the opcode map that it
matches (D10). -/
def Obligations.DecoderAgreesWithTheOpcodeMap : Prop :=
  ∀ w : Word, (opcodeRow w).map (·.mnemonic) = some (decode w).mnemonic

/-- R48: `RD_C000` and `RD_OPEN_C` are the only rows whose patterns overlap, and only on a read of 0xC000
(the patterns are those of the spec's decision D10). -/
def Obligations.OnlyTheC000RowsOverlap : Prop :=
  ∀ (w : Word) (r r' : OpcodeRow), r ∈ opcodeMap → r' ∈ opcodeMap → r.matches w = true → r'.matches w = true →
    r = r' ∨ (w.kind = 0b00#2 ∧ w.addr = 0xC000#16 ∧
      ((r.mnemonic = "RD_C000" ∧ r'.mnemonic = "RD_OPEN_C") ∨ (r.mnemonic = "RD_OPEN_C" ∧ r'.mnemonic = "RD_C000")))

/-- Words of 95_test_vectors.md 2.1, one of each family (D10). -/
def Obligations.SampleWordsDecodeAsTheVectorsSay : Prop :=
  decode 0x11FFF0A = .wrRamg 0x1FFF 0x0A ∧ decode 0x1BFFFAB = .wrRam 0xBFFF 0xAB ∧
    decode 0x0A00055 = .rdRam 0xA000 ∧ decode 0x0C00000 = .rdC000 ∧ decode 0x0C00100 = .rdOpenC 0xC001 ∧
    decode 0x2ABCDEF = .saveRam ∧ decode 0x3FFFFFF = .loadRam

/-! ### A step -/

/-- R21 and R95: a running machine takes the earliest operation issued, with the host's operands, and runs
the operation its word decodes to. The queue is the model's (log entry 4). -/
def Obligations.StepRunsTheEarliestOperation : Prop :=
  ∀ (s : State) (r : Request) (rest : List Request), s.machine = .running → s.pending = r :: rest →
    step s = exec (decode r.word) { s with pending := rest, host := r.host }

/-- R95: the controller has no agent of its own, so with nothing issued a step changes nothing (log
entry 4). -/
def Obligations.StepWithNothingIssuedChangesNothing : Prop :=
  ∀ s : State, s.machine = .running → s.pending = [] → step s = .next s

/-- A word placed for fetching is the operation the next step runs, on the state as it stands (log
entry 4). -/
def Obligations.PlacedWordRunsNext : Prop :=
  ∀ (s : State) (n : Nat), s.machine = .running → n < 2 ^ 26 →
    ∃ i, decodeTableWord 32 n = some i ∧ step (s.withFetchWord 32 n) = exec i s

/-- R84 and R93: a fault changes nothing but the machine's status, which becomes `Faulted`; the faulted
machine faults at every further step, whatever is issued to it (D18). -/
def Obligations.FaultsAreStickyAndChangeNothing : Prop :=
  ∀ (s : State) (f : Fault) (more : List Request), step s = .fault f →
    s.after (step s) = { s with machine := .faulted f } ∧
    step { s.after (step s) with pending := more } = .fault f

/-! ### Bus writes -/

/-- R59 with R51: the gate takes `D[3:0] == 0xA` in mode 1 with RAM present, and keeps its value
otherwise; nothing else changes. -/
def Obligations.WrRamgWritesTheGateOnlyInMode1WithRam : Prop :=
  ∀ (a : Addr) (d : Byte) (s : State), ∃ t, exec (.wrRamg a d) s = .next t ∧
    (0 < s.cfg.ramSize ∧ s.mode = 1#1 → (t.ramEnabled = true ↔ d.toNat % 16 = 0xA)) ∧
    (¬ (0 < s.cfg.ramSize ∧ s.mode = 1#1) → t.ramEnabled = s.ramEnabled) ∧
    t = { s with ramEnabled := t.ramEnabled, result := .nothing }

/-- R60 with R52: the ROM selector takes the low five bits, in every state; nothing else changes. -/
def Obligations.WrRombStoresTheLowFiveBits : Prop :=
  ∀ (a : Addr) (d : Byte) (s : State), ∃ t, exec (.wrRomb a d) s = .next t ∧
    t.selectedROMBank.toNat = d.toNat % 32 ∧
    t = { s with selectedROMBank := t.selectedROMBank, result := .nothing }

/-- R61 with R53: the RAM selector takes the low two bits, in every state; nothing else changes. -/
def Obligations.WrRambStoresTheLowTwoBits : Prop :=
  ∀ (a : Addr) (d : Byte) (s : State), ∃ t, exec (.wrRamb a d) s = .next t ∧
    t.selectedRAMBank.toNat = d.toNat % 4 ∧
    t = { s with selectedRAMBank := t.selectedRAMBank, result := .nothing }

/-- R62 with R54: the mode takes bit 0, in every state; nothing else changes. -/
def Obligations.WrModeStoresBitZero : Prop :=
  ∀ (a : Addr) (d : Byte) (s : State), ∃ t, exec (.wrMode a d) s = .next t ∧
    t.mode.toNat = d.toNat % 2 ∧ t = { s with mode := t.mode, result := .nothing }

/-- R63: with RAM present and enabled the byte is stored at `A - 0xA000` of the bank that the mode and the
selector name, and every other byte of the four banks keeps its value; otherwise the RAM is unchanged. The
place stored to is `ramIndex s.ramBankSel (ramOffset a)`, and no other place of the RAM changes. -/
def Obligations.WrRamStoresOneByteOfTheSelectedBank : Prop :=
  ∀ (a : Addr) (d : Byte) (s : State), Instr.wf (.wrRam a d) = true → ∃ t, exec (.wrRam a d) s = .next t ∧
    (0 < s.cfg.ramSize ∧ s.ramEnabled = true → ∀ b off, b < 4 → off < 0x2000 →
      t.ramRead b off =
        if b = (if s.mode = 1#1 then s.selectedRAMBank.toNat else 0) ∧ off = a.toNat - 0xA000 then d
        else s.ramRead b off) ∧
    (¬ (0 < s.cfg.ramSize ∧ s.ramEnabled = true) → t.ramBanks = s.ramBanks) ∧
    (∀ k, k ≠ ramIndex s.ramBankSel (ramOffset a) → Memory.read t.ramBanks k = Memory.read s.ramBanks k) ∧
    t = { s with ramBanks := t.ramBanks, result := .nothing }

/-- R64 and R65: writes to 0x8000-0x9FFF and to 0xC000-0xFFFF complete and change nothing. -/
def Obligations.NopWritesChangeNothing : Prop :=
  ∀ (a : Addr) (d : Byte) (s : State),
    exec (.wrNop8 a d) s = .next { s with result := .nothing } ∧
    exec (.wrNopC a d) s = .next { s with result := .nothing }

/-- R58: a bus write completes in every state with no result and no fault, and changes at most the one
register or the one RAM byte of its window; the RAM byte is `ramIndex s.ramBankSel (ramOffset a)`. -/
def Obligations.BusWriteChangesAtMostOneTarget : Prop :=
  ∀ (i : Instr) (s : State), i.isWrite = true → ∃ t, exec i s = .next t ∧ t.result = .nothing ∧
    ((∃ a d, i = .wrRamg a d ∧ t = { s with ramEnabled := t.ramEnabled, result := .nothing }) ∨
      (∃ a d, i = .wrRomb a d ∧ t = { s with selectedROMBank := t.selectedROMBank, result := .nothing }) ∨
      (∃ a d, i = .wrRamb a d ∧ t = { s with selectedRAMBank := t.selectedRAMBank, result := .nothing }) ∨
      (∃ a d, i = .wrMode a d ∧ t = { s with mode := t.mode, result := .nothing }) ∨
      (∃ a d, i = .wrRam a d ∧ t = { s with ramBanks := t.ramBanks, result := .nothing } ∧
        ∀ k, k ≠ ramIndex s.ramBankSel (ramOffset a) → Memory.read t.ramBanks k = Memory.read s.ramBanks k) ∨
      ((∃ a d, i = .wrNop8 a d ∨ i = .wrNopC a d) ∧ t = { s with result := .nothing }))

/-- R37(4) (the spec marks it as its own inference): every bus write is idempotent: twice in a row leaves the state once leaves. -/
def Obligations.BusWritesAreIdempotent : Prop :=
  ∀ (i : Instr) (s t : State), i.isWrite = true → exec i s = .next t → exec i t = .next t

/-- R27 and R58 to R65, as the bus master sees them: a write to any of the 65536 addresses completes, and
each register and each RAM byte afterwards is what the address map says. -/
def Obligations.BusWritesFollowTheAddressMap : Prop :=
  ∀ (s : State) (a : Addr) (d : Byte), s.machine = .running → ∃ t, s.busWrite a d = .next t ∧ t.cfg = s.cfg ∧
    (t.ramEnabled =
      if a.toNat < 0x2000 ∧ 0 < s.cfg.ramSize ∧ s.mode = 1#1 then decide (d.toNat % 16 = 10) else s.ramEnabled) ∧
    (t.selectedROMBank.toNat =
      if 0x2000 ≤ a.toNat ∧ a.toNat < 0x4000 then d.toNat % 32 else s.selectedROMBank.toNat) ∧
    (t.selectedRAMBank.toNat =
      if 0x4000 ≤ a.toNat ∧ a.toNat < 0x6000 then d.toNat % 4 else s.selectedRAMBank.toNat) ∧
    (t.mode.toNat = if 0x6000 ≤ a.toNat ∧ a.toNat < 0x8000 then d.toNat % 2 else s.mode.toNat) ∧
    (∀ b off, b < 4 → off < 0x2000 → t.ramRead b off =
      if 0 < s.cfg.ramSize ∧ s.ramEnabled = true ∧ b = (if s.mode = 1#1 then s.selectedRAMBank.toNat else 0) ∧
        a.toNat = 0xA000 + off then d else s.ramRead b off)

/-- R108 (the spec marks it as its own inference): a gate write made in mode 0 is lost, not deferred: selecting mode 1 afterwards leaves the gate as
it was, while the opposite order writes it. -/
def Obligations.GateWriteBeforeModeSelectIsLost : Prop :=
  ∀ (s : State) (a a' : Addr) (d m : Byte), 0 < s.cfg.ramSize → s.mode = 0#1 → m.toNat % 2 = 1 →
    (∃ t u, exec (.wrRamg a d) s = .next t ∧ exec (.wrMode a' m) t = .next u ∧
      u.mode = 1#1 ∧ u.ramEnabled = s.ramEnabled) ∧
    (∃ t u, exec (.wrMode a' m) s = .next t ∧ exec (.wrRamg a d) t = .next u ∧
      u.mode = 1#1 ∧ (u.ramEnabled = true ↔ d.toNat % 16 = 10))

/-! ### Bus reads -/

/-- R67: a read below 0x4000 gives that byte of the ROM image, in every state; nothing else changes. -/
def Obligations.RdRom0ReturnsTheFixedBankByte : Prop :=
  ∀ (a : Addr) (s : State) (rom : List Byte), Instr.wf (.rdRom0 a) = true → s.cfg.rom = RomImage.ofBytes rom →
    exec (.rdRom0 a) s = .next { s with result := .byte (rom.getD a.toNat 0#8) }

/-- R68: with an existing bank selected, a read of 0x4000-0x7FFF gives the byte of that bank, and selector 0
shows physical bank 1 (the spec's decision D1); nothing else changes. -/
def Obligations.RdRomxReturnsTheSelectedBankByte : Prop :=
  ∀ (a : Addr) (s : State) (rom : List Byte), Instr.wf (.rdRomx a) = true → s.cfg.rom = RomImage.ofBytes rom →
    s.selectedROMBank.toNat < s.cfg.romSize / 0x4000 →
    exec (.rdRomx a) s = .next { s with
      result := .byte (rom.getD ((if s.selectedROMBank.toNat = 0 then 0x4000 else s.selectedROMBank.toNat * 0x4000) +
        (a.toNat - 0x4000)) 0#8) }

/-- R88: with a missing bank selected, a read of 0x4000-0x7FFF faults, recording the selector and `N` (the
spec's decision D3). -/
def Obligations.RdRomxFaultsOnAMissingBank : Prop :=
  ∀ (a : Addr) (s : State), s.cfg.romSize / 0x4000 ≤ s.selectedROMBank.toNat →
    exec (.rdRomx a) s = .fault (.romBankOutOfRange s.selectedROMBank (s.cfg.romSize / 0x4000))

/-- R69 and R72: reads of 0x8000-0x9FFF and of 0xC001-0xFFFF give 0x00 in every state; nothing else
changes. -/
def Obligations.OpenBusReadsReturnZero : Prop :=
  ∀ (a : Addr) (s : State),
    exec (.rdOpen8 a) s = .next { s with result := .byte 0x00#8 } ∧
    exec (.rdOpenC a) s = .next { s with result := .byte 0x00#8 }

/-- R70 with R32: a read of the RAM window gives the byte of the bank the mode and the selector name when
RAM is present and enabled, and 0x00 otherwise; nothing else changes. -/
def Obligations.RdRamReturnsTheGatedByte : Prop :=
  ∀ (a : Addr) (s : State), Instr.wf (.rdRam a) = true →
    (0 < s.cfg.ramSize ∧ s.ramEnabled = true → exec (.rdRam a) s = .next { s with
      result := .byte (s.ramRead (if s.mode = 1#1 then s.selectedRAMBank.toNat else 0) (a.toNat - 0xA000)) }) ∧
    (¬ (0 < s.cfg.ramSize ∧ s.ramEnabled = true) →
      exec (.rdRam a) s = .next { s with result := .byte 0x00#8 })

/-- R71: with RAM absent or disabled, a read of 0xC000 gives 0x00; nothing else changes. -/
def Obligations.RdC000ReturnsZeroWithRamClosed : Prop :=
  ∀ s : State, ¬ (0 < s.cfg.ramSize ∧ s.ramEnabled = true) →
    exec .rdC000 s = .next { s with result := .byte 0x00#8 }

/-- R89: with RAM present and enabled, a read of 0xC000 faults, recording the address (the spec's decision
D4). -/
def Obligations.RdC000FaultsWithRamOpen : Prop :=
  ∀ s : State, 0 < s.cfg.ramSize → s.ramEnabled = true → exec .rdC000 s = .fault (.ramReadPastBank 0xC000#16)

/-- R17: a bus read that completes hands back a byte and changes no state. -/
def Obligations.BusReadsNeverChangeState : Prop :=
  ∀ (i : Instr) (s t : State), i.isRead = true → exec i s = .next t →
    ∃ b, t = { s with result := .byte b }

/-- R27 and R66 to R72, as the bus master sees them: the outcome of a read of any of the 65536 addresses is
what the address map says. Selector 0 and the two faults are the spec's decisions D1, D3 and D4. -/
def Obligations.BusReadsFollowTheAddressMap : Prop :=
  ∀ (s : State) (a : Addr), s.machine = .running →
    observe (s.busRead a) = some (
      if a.toNat < 0x4000 then .ok (.byte (s.romByte a.toNat))
      else if a.toNat < 0x8000 then
        if s.selectedROMBank.toNat * 0x4000 + 0x4000 ≤ s.cfg.romSize then
          .ok (.byte (s.romByte (max s.selectedROMBank.toNat 1 * 0x4000 + (a.toNat - 0x4000))))
        else .error (.romBankOutOfRange s.selectedROMBank (s.cfg.romSize / 0x4000))
      else if 0xA000 ≤ a.toNat ∧ a.toNat ≤ 0xC000 ∧ 0 < s.cfg.ramSize ∧ s.ramEnabled = true then
        if a.toNat = 0xC000 then .error (.ramReadPastBank 0xC000#16)
        else .ok (.byte (s.ramRead (if s.mode = 1#1 then s.selectedRAMBank.toNat else 0) (a.toNat - 0xA000)))
      else .ok (.byte 0x00#8))

/-- R34 (the spec marks it as its own inference; D1 and D6): in a state that meets the invariant, the byte of a ROMX read lies in the declared ROM, from offset
0x4000 on and below 0x80000. -/
def Obligations.RomxReadsStayInTheDeclaredRom : Prop :=
  ∀ (s t : State) (a : Addr), s.Inv → Instr.wf (.rdRomx a) = true → exec (.rdRomx a) s = .next t →
    ∃ o, t.result = .byte (s.romByte o) ∧ 0x4000 ≤ o ∧ o < 0x80000 ∧ o < s.cfg.romSize ∧ o < s.cfg.rom.length

/-- R31: the mode and the RAM registers and contents take no part in ROM reads, and the ROM selector takes
no part in RAM accesses. -/
def Obligations.RomAndRamMappingsAreIndependent : Prop :=
  (∀ (s s' : State) (a : Addr), s.cfg = s'.cfg → s.selectedROMBank = s'.selectedROMBank →
    observe (exec (.rdRom0 a) s) = observe (exec (.rdRom0 a) s') ∧
    observe (exec (.rdRomx a) s) = observe (exec (.rdRomx a) s')) ∧
  (∀ (s : State) (k : BitVec 5) (a : Addr) (d : Byte),
    observe (exec (.rdRam a) { s with selectedROMBank := k }) = observe (exec (.rdRam a) s) ∧
    ∃ t u, exec (.wrRam a d) { s with selectedROMBank := k } = .next t ∧ exec (.wrRam a d) s = .next u ∧
      t.ramBanks = u.ramBanks)

/-! ### Persistence -/

/-- R74: the blob is 32768 bytes, the banks in bank order and each bank's bytes in offset order. -/
def Obligations.BlobHoldsTheBanksInOrder : Prop :=
  ∀ s : State, s.ramImage.length = 32768 ∧
    ∀ b off, b < 4 → off < 0x2000 → s.ramImage[b * 0x2000 + off]? = some (s.ramRead b off)

/-- R75: with RAM and a battery, a SaveRAM whose write succeeds answers `Ok`, leaves exactly the blob in
the sink, and changes nothing else, whatever the gate and the mode are. -/
def Obligations.SaveRamHandsOverTheBlob : Prop :=
  ∀ s : State, 0 < s.cfg.ramSize → s.cfg.battery = true → s.host.saveOutcome = .ok →
    ∃ t, exec .saveRam s = .next t ∧ t.result = .ok ∧ t.sink.length = 32768 ∧
      (∀ b off, b < 4 → off < 0x2000 → t.sink.getD (b * 0x2000 + off) 0#8 = s.ramRead b off) ∧
      t = { s with sink := t.sink, result := .ok }

/-- R91 for SaveRAM: a failed write is answered with the storage error unchanged, and no register and no RAM
byte changes. What the sink then holds is a free value (D9, log entry 5), so nothing is said of it. -/
def Obligations.SaveRamReportsTheStorageError : Prop :=
  ∀ (s : State) (e : StorageError), 0 < s.cfg.ramSize → s.cfg.battery = true → s.host.saveOutcome = .ioError e →
    ∃ t, exec .saveRam s = .next t ∧ t.result = .err (.storageIo e) ∧
      t = { s with sink := t.sink, freeDraws := t.freeDraws, result := .err (.storageIo e) }

/-- R73, R75 and R76: without RAM or without a battery both host operations answer `Ok` and do no work (the
spec's decision D7). -/
def Obligations.PersistenceDoesNoWorkWithoutRamAndBattery : Prop :=
  ∀ s : State, ¬ (0 < s.cfg.ramSize ∧ s.cfg.battery = true) →
    exec .saveRam s = .next { s with result := .ok } ∧ exec .loadRam s = .next { s with result := .ok }

/-- R76: a source of exactly 32768 bytes replaces every RAM byte at once, whatever the gate and the mode
are, and changes nothing else. -/
def Obligations.LoadRamReplacesEveryByte : Prop :=
  ∀ (s : State) (bs : List Byte), 0 < s.cfg.ramSize → s.cfg.battery = true → s.host.loadSource = .bytes bs →
    bs.length = 32768 →
    ∃ t, exec .loadRam s = .next t ∧
      (∀ b off, b < 4 → off < 0x2000 → t.ramRead b off = bs.getD (b * 0x2000 + off) 0#8) ∧
      t = { s with ramBanks := t.ramBanks, result := .ok }

/-- R90: a source of any other length is `MALFORMED_SAVE` with the length recorded; nothing else changes. -/
def Obligations.LoadRamRejectsAWrongLength : Prop :=
  ∀ (s : State) (bs : List Byte), 0 < s.cfg.ramSize → s.cfg.battery = true → s.host.loadSource = .bytes bs →
    bs.length ≠ 32768 →
    exec .loadRam s = .next { s with result := .err (.malformedSave bs.length) }

/-- R76 and R91 for LoadRAM: an absent source answers `Ok`, a failed read the storage error unchanged, and
neither changes anything else (the spec's decision D8). -/
def Obligations.LoadRamOfNothingChangesNothing : Prop :=
  ∀ s : State, 0 < s.cfg.ramSize → s.cfg.battery = true →
    (s.host.loadSource = .absent → exec .loadRam s = .next { s with result := .ok }) ∧
    (∀ e, s.host.loadSource = .ioError e → exec .loadRam s = .next { s with result := .err (.storageIo e) })

/-- R79 (the spec marks it as its own inference): a LoadRAM of the blob that a SaveRAM handed over gives a second controller the first one's RAM,
byte for byte, and a SaveRAM of the second gives the same blob again. -/
def Obligations.LoadOfASaveRestoresTheRam : Prop :=
  ∀ (s₁ t₁ s₂ : State), s₁.Inv → s₁.persist = true → s₁.host.saveOutcome = .ok → exec .saveRam s₁ = .next t₁ →
    s₂.persist = true → s₂.host = { saveOutcome := .ok, loadSource := .bytes t₁.sink } →
    ∃ t₂ u₂, exec .loadRam s₂ = .next t₂ ∧ t₂.result = .ok ∧ t₂.ramBanks = s₁.ramBanks ∧
      exec .saveRam t₂ = .next u₂ ∧ u₂.result = .ok ∧ u₂.sink = t₁.sink

/-- R77 (the spec marks it as its own inference): what SaveRAM and LoadRAM answer, hand over and load does not depend on the four registers, they
write none of them, and no bus operation changes the sink. -/
def Obligations.PersistenceAndBusStateAreIndependent : Prop :=
  (∀ (s : State) (k : BitVec 5) (r : BitVec 2) (g : Bool) (m : BitVec 1) (i : Instr) (t : State),
    i = .saveRam ∨ i = .loadRam → exec i s = .next t →
    exec i { s with selectedROMBank := k, selectedRAMBank := r, ramEnabled := g, mode := m } =
      .next { t with selectedROMBank := k, selectedRAMBank := r, ramEnabled := g, mode := m }) ∧
  (∀ (s t : State) (i : Instr), i ≠ .saveRam → exec i s = .next t → t.sink = s.sink)

/-- R86: an operation that answers `Err` is a host operation, and has written no register and no RAM
byte. -/
def Obligations.ErrorsWriteNothing : Prop :=
  ∀ (i : Instr) (s t : State) (e : OpError), exec i s = .next t → t.result = .err e →
    (i = .saveRam ∨ i = .loadRam) ∧
      t = { s with sink := t.sink, freeDraws := t.freeDraws, result := .err e }

/-! ### The whole machine -/

/-- From every state that meets the invariant, a step that completes leads to one that meets it: the RAM
keeps its canonical form and stays inside the four banks, the configuration stays one construction accepts,
and without RAM the gate stays closed. -/
def Obligations.StepKeepsInvariant : Prop :=
  ∀ s t : State, s.Inv → step s = .next t → t.Inv

/-- Every state that a constructed controller reaches meets the invariant and has the configuration it was
constructed with, whatever operations and storage outcomes are issued to it (R9, R18). -/
def Obligations.EveryRunKeepsInvariantAndConfiguration : Prop :=
  ∀ (c : Construction) (s₀ s : State) (ops : List Request) (k : Nat), construct c = .next s₀ →
    Reaches { s₀ with pending := ops } k s → s.Inv ∧ s.cfg = s₀.cfg

/-- R85 and R83: an operation faults in exactly two cases, a ROMX read through a missing bank and a read of
0xC000 with RAM open; in every other case it completes, and none is ever refused. The two faults are the
spec's decisions D3 and D4. -/
def Obligations.OperationsFaultInExactlyTwoCases : Prop :=
  ∀ (i : Instr) (s : State),
    (((∃ a, i = .rdRomx a) ∧ s.cfg.romSize / 0x4000 ≤ s.selectedROMBank.toNat) ∨
        (i = .rdC000 ∧ 0 < s.cfg.ramSize ∧ s.ramEnabled = true) → ∃ f, exec i s = .fault f) ∧
    (¬ (((∃ a, i = .rdRomx a) ∧ s.cfg.romSize / 0x4000 ≤ s.selectedROMBank.toNat) ∨
        (i = .rdC000 ∧ 0 < s.cfg.ramSize ∧ s.ramEnabled = true)) → ∃ t, exec i s = .next t)

/-- R88: with 32 banks or more no ROMX read faults, whatever the selector holds. -/
def Obligations.ThirtyTwoBanksNeverFault : Prop :=
  ∀ (s : State) (a : Addr), 0x80000 ≤ s.cfg.romSize → ∃ t, exec (.rdRomx a) s = .next t

/-- R12 to R15: the only writer of each register is a bus write to its own window. A step that changes a
register ran such a write, and the register then holds the field of the byte written. -/
def Obligations.RegistersChangeOnlyThroughTheirWindows : Prop :=
  ∀ s t : State, step s = .next t →
    (t.selectedROMBank ≠ s.selectedROMBank → ∃ r rest, s.pending = r :: rest ∧ r.word.kind = 0b01#2 ∧
      0x2000 ≤ r.word.addr.toNat ∧ r.word.addr.toNat ≤ 0x3FFF ∧ t.selectedROMBank.toNat = r.word.data.toNat % 32) ∧
    (t.selectedRAMBank ≠ s.selectedRAMBank → ∃ r rest, s.pending = r :: rest ∧ r.word.kind = 0b01#2 ∧
      0x4000 ≤ r.word.addr.toNat ∧ r.word.addr.toNat ≤ 0x5FFF ∧ t.selectedRAMBank.toNat = r.word.data.toNat % 4) ∧
    (t.mode ≠ s.mode → ∃ r rest, s.pending = r :: rest ∧ r.word.kind = 0b01#2 ∧
      0x6000 ≤ r.word.addr.toNat ∧ r.word.addr.toNat ≤ 0x7FFF ∧ t.mode.toNat = r.word.data.toNat % 2) ∧
    (t.ramEnabled ≠ s.ramEnabled → ∃ r rest, s.pending = r :: rest ∧ r.word.kind = 0b01#2 ∧
      r.word.addr.toNat ≤ 0x1FFF ∧ s.mode = 1#1 ∧ 0 < s.cfg.ramSize ∧
      (t.ramEnabled = true ↔ r.word.data.toNat % 16 = 10))

/-- R19: the only writers of a RAM byte are an accessible bus write to it and a LoadRAM that succeeds. -/
def Obligations.RamBytesChangeOnlyThroughTheirWriters : Prop :=
  ∀ (s t : State) (b off : Nat), b < 4 → off < 0x2000 → step s = .next t → t.ramRead b off ≠ s.ramRead b off →
    ∃ r rest, s.pending = r :: rest ∧
      ((r.word.kind = 0b01#2 ∧ r.word.addr.toNat = 0xA000 + off ∧ 0 < s.cfg.ramSize ∧ s.ramEnabled = true ∧
          b = (if s.mode = 1#1 then s.selectedRAMBank.toNat else 0) ∧ t.ramRead b off = r.word.data) ∨
        (r.word.kind = 0b11#2 ∧ 0 < s.cfg.ramSize ∧ s.cfg.battery = true ∧
          ∃ bs, r.host.loadSource = .bytes bs ∧ bs.length = 32768 ∧
            t.ramRead b off = bs.getD (b * 0x2000 + off) 0#8))

/-- R39 (the spec marks it as its own inference): a read of a RAM byte returns the value of the latest earlier write to it. After an accessible write
and any run in which no step writes that byte, an accessible read that reaches the same bank and offset
returns the byte written, whatever else the run did. -/
def Obligations.RamReadReturnsTheLatestWrite : Prop :=
  ∀ (s t u : State) (a : Addr) (d : Byte) (k : Nat), Instr.wf (.wrRam a d) = true → s.ramAccessible = true →
    exec (.wrRam a d) s = .next t → Reaches t k u →
    (∀ (j : Nat) (v : State), j < k → Reaches t j v → ¬ StepWritesRamByte v s.ramBankSel (ramOffset a)) →
    u.ramAccessible = true → u.ramBankSel = s.ramBankSel →
    exec (.rdRam a) u = .next { u with result := .byte d }

/-- R20 and D5: without RAM, no operation's outcome depends on the gate, the RAM selector, the mode or what
the RAM array holds. -/
def Obligations.WithoutRamItsStateCannotBeObserved : Prop :=
  ∀ (i : Instr) (s : State) (r : BitVec 2) (g : Bool) (m : BitVec 1) (ram : Memory), s.cfg.ramSize = 0 →
    observe (exec i { s with selectedRAMBank := r, ramEnabled := g, mode := m, ramBanks := ram }) =
      observe (exec i s)

/-! ### What one step keeps -/

/-- R9 ("No bus operation and no host operation writes a configuration field"): a step that completes leaves the
configuration as it was. -/
def Obligations.StepKeepsConfiguration : Prop :=
  ∀ s t : State, step s = .next t → t.cfg = s.cfg

/-- R39 as one step (the spec marks it as its own inference): a step that completes and runs no writer of
`ramBanks[b][off]` keeps that byte. The writers are those of R19: an accessible bus write to the byte, and a LoadRAM
that succeeds. -/
def Obligations.StepKeepsRamBytesItDoesNotWrite : Prop :=
  ∀ (s t : State) (b off : Nat), b < 4 → off < 0x2000 → step s = .next t → ¬ StepWritesRamByte s b off →
    t.ramRead b off = s.ramRead b off
end

