-- ==== Sys2Proof/Laws/Memory.lean ====
section
/-! SUPPORT. The laws of memory: what a read gives after a write, that every operation keeps the canonical
form, and that canonical memories which read alike are equal. -/

namespace Sys2Proof

/-! ### Reads -/

@[simp] theorem Memory.read_nil (a : Nat) : Memory.read [] a = 0#8 := rfl

theorem Memory.read_cons (k : Nat) (b : Byte) (m : Memory) (a : Nat) :
    Memory.read ((k, b) :: m) a = if k = a then b else Memory.read m a := rfl

theorem Memory.read_erase (m : Memory) (a a' : Nat) :
    Memory.read (Memory.erase m a) a' = if a = a' then 0#8 else Memory.read m a' := by
  induction m with
  | nil => simp [Memory.erase]
  | cons c m ih =>
    obtain ⟨k, b⟩ := c
    unfold Memory.erase at ih ⊢
    by_cases hk : k = a
    · subst hk
      simp only [List.filter_cons, bne_self_eq_false, Bool.false_eq_true, if_false, ih, Memory.read_cons]
      split <;> rfl
    · have : ((k, b).1 != a) = true := by simpa using hk
      simp only [List.filter_cons, this, if_true, Memory.read_cons, ih]
      by_cases h : k = a' <;> by_cases h' : a = a' <;> simp_all

theorem Memory.read_insert (m : Memory) (a : Nat) (v : Byte) (a' : Nat) (h : Memory.read m a = 0#8 ∧ ∀ c ∈ m, c.1 ≠ a) :
    Memory.read (Memory.insert m a v) a' = if a = a' then v else Memory.read m a' := by
  induction m with
  | nil => simp [Memory.insert, Memory.read_cons]
  | cons c m ih =>
    obtain ⟨k, b⟩ := c
    have hk : k ≠ a := h.2 (k, b) (by simp)
    have h' : Memory.read m a = 0#8 ∧ ∀ c ∈ m, c.1 ≠ a :=
      ⟨by simpa [Memory.read_cons, hk] using h.1, fun c hc => h.2 c (by simp [hc])⟩
    unfold Memory.insert
    split
    · simp [Memory.read_cons]
    · simp only [Memory.read_cons, ih h']
      by_cases h1 : k = a' <;> by_cases h2 : a = a' <;> simp_all

theorem Memory.erase_absent (m : Memory) (a : Nat) : ∀ c ∈ Memory.erase m a, c.1 ≠ a := by
  intro c hc
  simpa using (List.mem_filter.mp hc).2

/-- Read after write, in any memory: the written offset holds the written byte and no other changes. -/
theorem Memory.read_write (m : Memory) (a : Nat) (v : Byte) (a' : Nat) :
    Memory.read (Memory.write m a v) a' = if a = a' then v else Memory.read m a' := by
  unfold Memory.write
  split
  · rename_i hv
    rw [Memory.read_erase, hv]
  · rw [Memory.read_insert _ _ _ _ ⟨by simp [Memory.read_erase], Memory.erase_absent m a⟩, Memory.read_erase]
    split <;> rfl

/-! ### The canonical form -/

theorem Memory.wf_erase {m : Memory} (h : Memory.Wf m) (a : Nat) : Memory.Wf (Memory.erase m a) :=
  ⟨h.1.filter _, fun c hc => h.2 c (List.mem_of_mem_filter hc)⟩

theorem Memory.mem_insert {m : Memory} {a : Nat} {v : Byte} {c : Host.Cell} (h : c ∈ Memory.insert m a v) :
    c = (a, v) ∨ c ∈ m := by
  induction m with
  | nil => simpa [Memory.insert] using h
  | cons x m ih =>
    unfold Memory.insert at h
    split at h
    · simpa using h
    · rcases List.mem_cons.mp h with h | h
      · simp [h]
      · rcases ih h with h | h <;> simp [h]

theorem Memory.wf_insert {m : Memory} (h : Memory.Wf m) {a : Nat} {v : Byte} (hv : v ≠ 0#8)
    (ha : ∀ c ∈ m, c.1 ≠ a) : Memory.Wf (Memory.insert m a v) := by
  refine ⟨?_, fun c hc => ?_⟩
  · induction m with
    | nil => simp [Memory.insert]
    | cons x m ih =>
      have hm : Memory.Wf m := ⟨(List.pairwise_cons.mp h.1).2, fun c hc => h.2 c (by simp [hc])⟩
      have hx := (List.pairwise_cons.mp h.1).1
      have hne : x.1 ≠ a := ha x (by simp)
      unfold Memory.insert
      split
      · rename_i hlt
        refine List.pairwise_cons.mpr ⟨fun c hc => ?_, h.1⟩
        rcases List.mem_cons.mp hc with rfl | hc
        · exact hlt
        · exact Nat.lt_trans hlt (hx c hc)
      · refine List.pairwise_cons.mpr ⟨fun c hc => ?_, ih hm fun c hc => ha c (by simp [hc])⟩
        rcases Memory.mem_insert hc with rfl | hc
        · simp only; omega
        · exact hx c hc
  · rcases Memory.mem_insert hc with rfl | hc
    · exact hv
    · exact h.2 c hc

/-- A write keeps the canonical form. -/
theorem Memory.wf_write {m : Memory} (h : Memory.Wf m) (a : Nat) (v : Byte) : Memory.Wf (Memory.write m a v) := by
  unfold Memory.write
  split
  · exact Memory.wf_erase h a
  · rename_i hv
    exact Memory.wf_insert (Memory.wf_erase h a) hv (Memory.erase_absent m a)

/-- A write below `n` leaves a memory that lies below `n` below `n`. -/
theorem Memory.below_write {m : Memory} {n a : Nat} (h : Memory.Below n m) (ha : a < n) (v : Byte) :
    Memory.Below n (Memory.write m a v) := by
  intro c hc
  unfold Memory.write at hc
  split at hc
  · exact h c (List.mem_of_mem_filter hc)
  · rcases Memory.mem_insert hc with rfl | hc
    · exact ha
    · exact h c (List.mem_of_mem_filter hc)

/-- Writing the same byte twice is writing it once. -/
theorem Memory.write_write (m : Memory) (a : Nat) (v : Byte) :
    Memory.write (Memory.write m a v) a v = Memory.write m a v := by
  have erase_erase : ∀ m : Memory, Memory.erase (Memory.erase m a) a = Memory.erase m a := fun m => by
    simp [Memory.erase, List.filter_filter]
  have erase_insert : ∀ m : Memory, Memory.erase (Memory.insert m a v) a = Memory.erase m a := fun m => by
    induction m with
    | nil => simp [Memory.insert, Memory.erase]
    | cons x m ih =>
      unfold Memory.insert
      split
      · simp [Memory.erase]
      · unfold Memory.erase at ih ⊢
        simp only [List.filter_cons, ih]
  by_cases hv : v = 0#8
  · simp [Memory.write, hv, erase_erase]
  · simp [Memory.write, hv, erase_insert, erase_erase]

/-! ### Equality of canonical memories -/

theorem Memory.read_of_lt {m : Memory} {a : Nat} (h : ∀ c ∈ m, a < c.1) : Memory.read m a = 0#8 := by
  induction m with
  | nil => rfl
  | cons x m ih =>
    obtain ⟨k, b⟩ := x
    have : a < k := h (k, b) (by simp)
    rw [Memory.read_cons, if_neg (by omega)]
    exact ih fun c hc => h c (by simp [hc])

/-- An offset at or above the bound reads as 0x00. -/
theorem Memory.read_of_below {m : Memory} {n a : Nat} (h : Memory.Below n m) (ha : n ≤ a) : Memory.read m a = 0#8 := by
  induction m with
  | nil => rfl
  | cons x m ih =>
    obtain ⟨k, b⟩ := x
    have : k < n := h (k, b) (by simp)
    rw [Memory.read_cons, if_neg (by omega)]
    exact ih fun c hc => h c (by simp [hc])

theorem Memory.wf_tail {x : Host.Cell} {m : Memory} (h : Memory.Wf (x :: m)) :
    Memory.Wf m ∧ ∀ c ∈ m, x.1 < c.1 :=
  ⟨⟨(List.pairwise_cons.mp h.1).2, fun c hc => h.2 c (by simp [hc])⟩, (List.pairwise_cons.mp h.1).1⟩

/-- Canonical memories that read alike everywhere are equal. -/
theorem Memory.ext_of_wf {m m' : Memory} (h : Memory.Wf m) (h' : Memory.Wf m')
    (hr : ∀ a, Memory.read m a = Memory.read m' a) : m = m' := by
  induction m generalizing m' with
  | nil =>
    cases m' with
    | nil => rfl
    | cons y m' =>
      obtain ⟨k', b'⟩ := y
      have := hr k'
      rw [Memory.read_nil, Memory.read_cons, if_pos rfl] at this
      exact absurd this.symm (h'.2 (k', b') (by simp))
  | cons x m ih =>
    obtain ⟨k, b⟩ := x
    obtain ⟨hm, hlt⟩ := Memory.wf_tail h
    have hb : b ≠ 0#8 := h.2 (k, b) (by simp)
    cases m' with
    | nil =>
      have := hr k
      rw [Memory.read_nil, Memory.read_cons, if_pos rfl] at this
      exact absurd this hb
    | cons y m' =>
      obtain ⟨k', b'⟩ := y
      obtain ⟨hm', hlt'⟩ := Memory.wf_tail h'
      have hb' : b' ≠ 0#8 := h'.2 (k', b') (by simp)
      have hk : k = k' := by
        rcases Nat.lt_trichotomy k k' with hlt2 | heq | hlt2
        · have := hr k
          rw [Memory.read_cons, if_pos rfl, Memory.read_of_lt (m := (k', b') :: m')] at this
          · exact absurd this hb
          · intro c hc
            rcases List.mem_cons.mp hc with rfl | hc
            · exact hlt2
            · exact Nat.lt_trans hlt2 (hlt' c hc)
        · exact heq
        · have := hr k'
          rw [Memory.read_cons k', if_pos rfl, Memory.read_of_lt (m := (k, b) :: m)] at this
          · exact absurd this.symm hb'
          · intro c hc
            rcases List.mem_cons.mp hc with rfl | hc
            · exact hlt2
            · exact Nat.lt_trans hlt2 (hlt c hc)
      subst hk
      have hbb : b = b' := by simpa [Memory.read_cons] using hr k
      subst hbb
      rw [ih hm hm' fun a => ?_]
      have := hr a
      by_cases hka : k = a
      · subst hka
        rw [Memory.read_of_lt hlt, Memory.read_of_lt hlt']
      · simpa [Memory.read_cons, hka] using this

/-! ### Byte sequences -/

theorem Memory.ofBytesFrom_ge {i : Nat} {bs : List Byte} : ∀ c ∈ Memory.ofBytesFrom i bs, i ≤ c.1 := by
  induction bs generalizing i with
  | nil => simp [Memory.ofBytesFrom]
  | cons b bs ih =>
    intro c hc
    unfold Memory.ofBytesFrom at hc
    split at hc
    · have := ih c hc; omega
    · rcases List.mem_cons.mp hc with rfl | hc
      · exact Nat.le_refl _
      · have := ih c hc; omega

theorem Memory.ofBytesFrom_lt {i : Nat} {bs : List Byte} : ∀ c ∈ Memory.ofBytesFrom i bs, c.1 < i + bs.length := by
  induction bs generalizing i with
  | nil => simp [Memory.ofBytesFrom]
  | cons b bs ih =>
    intro c hc
    unfold Memory.ofBytesFrom at hc
    simp only [List.length_cons]
    split at hc
    · have := ih c hc; omega
    · rcases List.mem_cons.mp hc with rfl | hc
      · simp only; omega
      · have := ih c hc; omega

theorem Memory.wf_ofBytesFrom (i : Nat) (bs : List Byte) : Memory.Wf (Memory.ofBytesFrom i bs) := by
  induction bs generalizing i with
  | nil => simp [Memory.ofBytesFrom, Memory.Wf]
  | cons b bs ih =>
    unfold Memory.ofBytesFrom
    split
    · exact ih (i + 1)
    · rename_i hb
      refine ⟨List.pairwise_cons.mpr ⟨fun c hc => Memory.ofBytesFrom_ge c hc, (ih (i + 1)).1⟩, fun c hc => ?_⟩
      rcases List.mem_cons.mp hc with rfl | hc
      · exact hb
      · exact (ih (i + 1)).2 c hc

theorem Memory.read_ofBytesFrom (i : Nat) (bs : List Byte) (j : Nat) :
    Memory.read (Memory.ofBytesFrom i bs) (i + j) = bs.getD j 0#8 := by
  induction bs generalizing i j with
  | nil => simp [Memory.ofBytesFrom]
  | cons b bs ih =>
    unfold Memory.ofBytesFrom
    cases j with
    | zero =>
      split
      · rename_i hb
        rw [Memory.read_of_lt fun c hc => by have := Memory.ofBytesFrom_ge c hc; omega]
        simp [hb]
      · simp [Memory.read_cons]
    | succ j =>
      have h := ih (i + 1) j
      rw [show i + 1 + j = i + (j + 1) by omega] at h
      split
      · simpa using h
      · rw [Memory.read_cons, if_neg (by omega)]
        simpa using h

/-- The memory of a byte sequence reads as the sequence, and as 0x00 past its end. -/
theorem Memory.read_ofBytes (bs : List Byte) (j : Nat) : Memory.read (Memory.ofBytes bs) j = bs.getD j 0#8 := by
  simpa [Memory.ofBytes] using Memory.read_ofBytesFrom 0 bs j

theorem Memory.wf_ofBytes (bs : List Byte) : Memory.Wf (Memory.ofBytes bs) := Memory.wf_ofBytesFrom 0 bs

theorem Memory.below_ofBytes (bs : List Byte) : Memory.Below bs.length (Memory.ofBytes bs) := fun c hc => by
  simpa using Memory.ofBytesFrom_lt (i := 0) c hc

/-- A sequence of zero bytes lists nothing. -/
theorem Memory.ofBytes_replicate_zero (n : Nat) : Memory.ofBytes (List.replicate n 0#8) = [] := by
  have h : ∀ n i, Memory.ofBytesFrom i (List.replicate n 0#8) = [] := fun n => by
    induction n with
    | zero => intro i; rfl
    | succ n ih => intro i; simp [List.replicate_succ, Memory.ofBytesFrom, ih]
  exact h n 0

end Sys2Proof
end

