-- ==== Sys2Proof/Laws/State.lean ====
section
/-! SUPPORT. What each update of the state leaves in each field, true by unfolding, so that no later proof
unfolds a record update. -/

namespace Sys2Proof.Machine

/-! ### setRamEnabled -/

@[simp] theorem State.setRamEnabled_cfg (s : State) (v : Bool) : (s.setRamEnabled v).cfg = s.cfg := rfl
@[simp] theorem State.setRamEnabled_selectedROMBank (s : State) (v : Bool) : (s.setRamEnabled v).selectedROMBank = s.selectedROMBank := rfl
@[simp] theorem State.setRamEnabled_selectedRAMBank (s : State) (v : Bool) : (s.setRamEnabled v).selectedRAMBank = s.selectedRAMBank := rfl
@[simp] theorem State.setRamEnabled_ramEnabled (s : State) (v : Bool) : (s.setRamEnabled v).ramEnabled = v := rfl
@[simp] theorem State.setRamEnabled_mode (s : State) (v : Bool) : (s.setRamEnabled v).mode = s.mode := rfl
@[simp] theorem State.setRamEnabled_ramBanks (s : State) (v : Bool) : (s.setRamEnabled v).ramBanks = s.ramBanks := rfl
@[simp] theorem State.setRamEnabled_machine (s : State) (v : Bool) : (s.setRamEnabled v).machine = s.machine := rfl
@[simp] theorem State.setRamEnabled_result (s : State) (v : Bool) : (s.setRamEnabled v).result = s.result := rfl
@[simp] theorem State.setRamEnabled_host (s : State) (v : Bool) : (s.setRamEnabled v).host = s.host := rfl
@[simp] theorem State.setRamEnabled_sink (s : State) (v : Bool) : (s.setRamEnabled v).sink = s.sink := rfl
@[simp] theorem State.setRamEnabled_freeDraws (s : State) (v : Bool) : (s.setRamEnabled v).freeDraws = s.freeDraws := rfl
@[simp] theorem State.setRamEnabled_pending (s : State) (v : Bool) : (s.setRamEnabled v).pending = s.pending := rfl

/-! ### setSelectedROMBank -/

@[simp] theorem State.setSelectedROMBank_cfg (s : State) (v : BitVec 5) : (s.setSelectedROMBank v).cfg = s.cfg := rfl
@[simp] theorem State.setSelectedROMBank_selectedROMBank (s : State) (v : BitVec 5) : (s.setSelectedROMBank v).selectedROMBank = v := rfl
@[simp] theorem State.setSelectedROMBank_selectedRAMBank (s : State) (v : BitVec 5) : (s.setSelectedROMBank v).selectedRAMBank = s.selectedRAMBank := rfl
@[simp] theorem State.setSelectedROMBank_ramEnabled (s : State) (v : BitVec 5) : (s.setSelectedROMBank v).ramEnabled = s.ramEnabled := rfl
@[simp] theorem State.setSelectedROMBank_mode (s : State) (v : BitVec 5) : (s.setSelectedROMBank v).mode = s.mode := rfl
@[simp] theorem State.setSelectedROMBank_ramBanks (s : State) (v : BitVec 5) : (s.setSelectedROMBank v).ramBanks = s.ramBanks := rfl
@[simp] theorem State.setSelectedROMBank_machine (s : State) (v : BitVec 5) : (s.setSelectedROMBank v).machine = s.machine := rfl
@[simp] theorem State.setSelectedROMBank_result (s : State) (v : BitVec 5) : (s.setSelectedROMBank v).result = s.result := rfl
@[simp] theorem State.setSelectedROMBank_host (s : State) (v : BitVec 5) : (s.setSelectedROMBank v).host = s.host := rfl
@[simp] theorem State.setSelectedROMBank_sink (s : State) (v : BitVec 5) : (s.setSelectedROMBank v).sink = s.sink := rfl
@[simp] theorem State.setSelectedROMBank_freeDraws (s : State) (v : BitVec 5) : (s.setSelectedROMBank v).freeDraws = s.freeDraws := rfl
@[simp] theorem State.setSelectedROMBank_pending (s : State) (v : BitVec 5) : (s.setSelectedROMBank v).pending = s.pending := rfl

/-! ### setSelectedRAMBank -/

@[simp] theorem State.setSelectedRAMBank_cfg (s : State) (v : BitVec 2) : (s.setSelectedRAMBank v).cfg = s.cfg := rfl
@[simp] theorem State.setSelectedRAMBank_selectedROMBank (s : State) (v : BitVec 2) : (s.setSelectedRAMBank v).selectedROMBank = s.selectedROMBank := rfl
@[simp] theorem State.setSelectedRAMBank_selectedRAMBank (s : State) (v : BitVec 2) : (s.setSelectedRAMBank v).selectedRAMBank = v := rfl
@[simp] theorem State.setSelectedRAMBank_ramEnabled (s : State) (v : BitVec 2) : (s.setSelectedRAMBank v).ramEnabled = s.ramEnabled := rfl
@[simp] theorem State.setSelectedRAMBank_mode (s : State) (v : BitVec 2) : (s.setSelectedRAMBank v).mode = s.mode := rfl
@[simp] theorem State.setSelectedRAMBank_ramBanks (s : State) (v : BitVec 2) : (s.setSelectedRAMBank v).ramBanks = s.ramBanks := rfl
@[simp] theorem State.setSelectedRAMBank_machine (s : State) (v : BitVec 2) : (s.setSelectedRAMBank v).machine = s.machine := rfl
@[simp] theorem State.setSelectedRAMBank_result (s : State) (v : BitVec 2) : (s.setSelectedRAMBank v).result = s.result := rfl
@[simp] theorem State.setSelectedRAMBank_host (s : State) (v : BitVec 2) : (s.setSelectedRAMBank v).host = s.host := rfl
@[simp] theorem State.setSelectedRAMBank_sink (s : State) (v : BitVec 2) : (s.setSelectedRAMBank v).sink = s.sink := rfl
@[simp] theorem State.setSelectedRAMBank_freeDraws (s : State) (v : BitVec 2) : (s.setSelectedRAMBank v).freeDraws = s.freeDraws := rfl
@[simp] theorem State.setSelectedRAMBank_pending (s : State) (v : BitVec 2) : (s.setSelectedRAMBank v).pending = s.pending := rfl

/-! ### setMode -/

@[simp] theorem State.setMode_cfg (s : State) (v : BitVec 1) : (s.setMode v).cfg = s.cfg := rfl
@[simp] theorem State.setMode_selectedROMBank (s : State) (v : BitVec 1) : (s.setMode v).selectedROMBank = s.selectedROMBank := rfl
@[simp] theorem State.setMode_selectedRAMBank (s : State) (v : BitVec 1) : (s.setMode v).selectedRAMBank = s.selectedRAMBank := rfl
@[simp] theorem State.setMode_ramEnabled (s : State) (v : BitVec 1) : (s.setMode v).ramEnabled = s.ramEnabled := rfl
@[simp] theorem State.setMode_mode (s : State) (v : BitVec 1) : (s.setMode v).mode = v := rfl
@[simp] theorem State.setMode_ramBanks (s : State) (v : BitVec 1) : (s.setMode v).ramBanks = s.ramBanks := rfl
@[simp] theorem State.setMode_machine (s : State) (v : BitVec 1) : (s.setMode v).machine = s.machine := rfl
@[simp] theorem State.setMode_result (s : State) (v : BitVec 1) : (s.setMode v).result = s.result := rfl
@[simp] theorem State.setMode_host (s : State) (v : BitVec 1) : (s.setMode v).host = s.host := rfl
@[simp] theorem State.setMode_sink (s : State) (v : BitVec 1) : (s.setMode v).sink = s.sink := rfl
@[simp] theorem State.setMode_freeDraws (s : State) (v : BitVec 1) : (s.setMode v).freeDraws = s.freeDraws := rfl
@[simp] theorem State.setMode_pending (s : State) (v : BitVec 1) : (s.setMode v).pending = s.pending := rfl

/-! ### ramWrite -/

@[simp] theorem State.ramWrite_cfg (s : State) (b off : Nat) (v : Byte) : (s.ramWrite b off v).cfg = s.cfg := rfl
@[simp] theorem State.ramWrite_selectedROMBank (s : State) (b off : Nat) (v : Byte) : (s.ramWrite b off v).selectedROMBank = s.selectedROMBank := rfl
@[simp] theorem State.ramWrite_selectedRAMBank (s : State) (b off : Nat) (v : Byte) : (s.ramWrite b off v).selectedRAMBank = s.selectedRAMBank := rfl
@[simp] theorem State.ramWrite_ramEnabled (s : State) (b off : Nat) (v : Byte) : (s.ramWrite b off v).ramEnabled = s.ramEnabled := rfl
@[simp] theorem State.ramWrite_mode (s : State) (b off : Nat) (v : Byte) : (s.ramWrite b off v).mode = s.mode := rfl
@[simp] theorem State.ramWrite_ramBanks (s : State) (b off : Nat) (v : Byte) : (s.ramWrite b off v).ramBanks = Memory.write s.ramBanks (ramIndex b off) v := rfl
@[simp] theorem State.ramWrite_machine (s : State) (b off : Nat) (v : Byte) : (s.ramWrite b off v).machine = s.machine := rfl
@[simp] theorem State.ramWrite_result (s : State) (b off : Nat) (v : Byte) : (s.ramWrite b off v).result = s.result := rfl
@[simp] theorem State.ramWrite_host (s : State) (b off : Nat) (v : Byte) : (s.ramWrite b off v).host = s.host := rfl
@[simp] theorem State.ramWrite_sink (s : State) (b off : Nat) (v : Byte) : (s.ramWrite b off v).sink = s.sink := rfl
@[simp] theorem State.ramWrite_freeDraws (s : State) (b off : Nat) (v : Byte) : (s.ramWrite b off v).freeDraws = s.freeDraws := rfl
@[simp] theorem State.ramWrite_pending (s : State) (b off : Nat) (v : Byte) : (s.ramWrite b off v).pending = s.pending := rfl

/-! ### loadRamImage -/

@[simp] theorem State.loadRamImage_cfg (s : State) (bs : List Byte) : (s.loadRamImage bs).cfg = s.cfg := rfl
@[simp] theorem State.loadRamImage_selectedROMBank (s : State) (bs : List Byte) : (s.loadRamImage bs).selectedROMBank = s.selectedROMBank := rfl
@[simp] theorem State.loadRamImage_selectedRAMBank (s : State) (bs : List Byte) : (s.loadRamImage bs).selectedRAMBank = s.selectedRAMBank := rfl
@[simp] theorem State.loadRamImage_ramEnabled (s : State) (bs : List Byte) : (s.loadRamImage bs).ramEnabled = s.ramEnabled := rfl
@[simp] theorem State.loadRamImage_mode (s : State) (bs : List Byte) : (s.loadRamImage bs).mode = s.mode := rfl
@[simp] theorem State.loadRamImage_ramBanks (s : State) (bs : List Byte) : (s.loadRamImage bs).ramBanks = Memory.ofBytes bs := rfl
@[simp] theorem State.loadRamImage_machine (s : State) (bs : List Byte) : (s.loadRamImage bs).machine = s.machine := rfl
@[simp] theorem State.loadRamImage_result (s : State) (bs : List Byte) : (s.loadRamImage bs).result = s.result := rfl
@[simp] theorem State.loadRamImage_host (s : State) (bs : List Byte) : (s.loadRamImage bs).host = s.host := rfl
@[simp] theorem State.loadRamImage_sink (s : State) (bs : List Byte) : (s.loadRamImage bs).sink = s.sink := rfl
@[simp] theorem State.loadRamImage_freeDraws (s : State) (bs : List Byte) : (s.loadRamImage bs).freeDraws = s.freeDraws := rfl
@[simp] theorem State.loadRamImage_pending (s : State) (bs : List Byte) : (s.loadRamImage bs).pending = s.pending := rfl

/-! ### setSink -/

@[simp] theorem State.setSink_cfg (s : State) (bs : List Byte) : (s.setSink bs).cfg = s.cfg := rfl
@[simp] theorem State.setSink_selectedROMBank (s : State) (bs : List Byte) : (s.setSink bs).selectedROMBank = s.selectedROMBank := rfl
@[simp] theorem State.setSink_selectedRAMBank (s : State) (bs : List Byte) : (s.setSink bs).selectedRAMBank = s.selectedRAMBank := rfl
@[simp] theorem State.setSink_ramEnabled (s : State) (bs : List Byte) : (s.setSink bs).ramEnabled = s.ramEnabled := rfl
@[simp] theorem State.setSink_mode (s : State) (bs : List Byte) : (s.setSink bs).mode = s.mode := rfl
@[simp] theorem State.setSink_ramBanks (s : State) (bs : List Byte) : (s.setSink bs).ramBanks = s.ramBanks := rfl
@[simp] theorem State.setSink_machine (s : State) (bs : List Byte) : (s.setSink bs).machine = s.machine := rfl
@[simp] theorem State.setSink_result (s : State) (bs : List Byte) : (s.setSink bs).result = s.result := rfl
@[simp] theorem State.setSink_host (s : State) (bs : List Byte) : (s.setSink bs).host = s.host := rfl
@[simp] theorem State.setSink_sink (s : State) (bs : List Byte) : (s.setSink bs).sink = bs := rfl
@[simp] theorem State.setSink_freeDraws (s : State) (bs : List Byte) : (s.setSink bs).freeDraws = s.freeDraws := rfl
@[simp] theorem State.setSink_pending (s : State) (bs : List Byte) : (s.setSink bs).pending = s.pending := rfl

/-! ### spoilSink -/

@[simp] theorem State.spoilSink_cfg (s : State) : s.spoilSink.cfg = s.cfg := rfl
@[simp] theorem State.spoilSink_selectedROMBank (s : State) : s.spoilSink.selectedROMBank = s.selectedROMBank := rfl
@[simp] theorem State.spoilSink_selectedRAMBank (s : State) : s.spoilSink.selectedRAMBank = s.selectedRAMBank := rfl
@[simp] theorem State.spoilSink_ramEnabled (s : State) : s.spoilSink.ramEnabled = s.ramEnabled := rfl
@[simp] theorem State.spoilSink_mode (s : State) : s.spoilSink.mode = s.mode := rfl
@[simp] theorem State.spoilSink_ramBanks (s : State) : s.spoilSink.ramBanks = s.ramBanks := rfl
@[simp] theorem State.spoilSink_machine (s : State) : s.spoilSink.machine = s.machine := rfl
@[simp] theorem State.spoilSink_result (s : State) : s.spoilSink.result = s.result := rfl
@[simp] theorem State.spoilSink_host (s : State) : s.spoilSink.host = s.host := rfl
@[simp] theorem State.spoilSink_sink (s : State) : s.spoilSink.sink = Config.freeSink s.freeDraws := rfl
@[simp] theorem State.spoilSink_freeDraws (s : State) : s.spoilSink.freeDraws = s.freeDraws + 1 := rfl
@[simp] theorem State.spoilSink_pending (s : State) : s.spoilSink.pending = s.pending := rfl

/-! ### issue -/

@[simp] theorem State.issue_cfg (s : State) (r : Request) : (s.issue r).cfg = s.cfg := rfl
@[simp] theorem State.issue_selectedROMBank (s : State) (r : Request) : (s.issue r).selectedROMBank = s.selectedROMBank := rfl
@[simp] theorem State.issue_selectedRAMBank (s : State) (r : Request) : (s.issue r).selectedRAMBank = s.selectedRAMBank := rfl
@[simp] theorem State.issue_ramEnabled (s : State) (r : Request) : (s.issue r).ramEnabled = s.ramEnabled := rfl
@[simp] theorem State.issue_mode (s : State) (r : Request) : (s.issue r).mode = s.mode := rfl
@[simp] theorem State.issue_ramBanks (s : State) (r : Request) : (s.issue r).ramBanks = s.ramBanks := rfl
@[simp] theorem State.issue_machine (s : State) (r : Request) : (s.issue r).machine = s.machine := rfl
@[simp] theorem State.issue_result (s : State) (r : Request) : (s.issue r).result = s.result := rfl
@[simp] theorem State.issue_host (s : State) (r : Request) : (s.issue r).host = s.host := rfl
@[simp] theorem State.issue_sink (s : State) (r : Request) : (s.issue r).sink = s.sink := rfl
@[simp] theorem State.issue_freeDraws (s : State) (r : Request) : (s.issue r).freeDraws = s.freeDraws := rfl
@[simp] theorem State.issue_pending (s : State) (r : Request) : (s.issue r).pending = s.pending ++ [r] := rfl

/-! ### Conditions after an update: each depends on its own fields only -/

@[simp] theorem State.setRamEnabled_gateWritable (s : State) (v : Bool) : (s.setRamEnabled v).gateWritable = s.gateWritable := rfl
@[simp] theorem State.setRamEnabled_ramBankSel (s : State) (v : Bool) : (s.setRamEnabled v).ramBankSel = s.ramBankSel := rfl
@[simp] theorem State.setRamEnabled_romBankExists (s : State) (v : Bool) : (s.setRamEnabled v).romBankExists = s.romBankExists := rfl
@[simp] theorem State.setRamEnabled_persist (s : State) (v : Bool) : (s.setRamEnabled v).persist = s.persist := rfl
@[simp] theorem State.setSelectedROMBank_ramAccessible (s : State) (v : BitVec 5) : (s.setSelectedROMBank v).ramAccessible = s.ramAccessible := rfl
@[simp] theorem State.setSelectedROMBank_gateWritable (s : State) (v : BitVec 5) : (s.setSelectedROMBank v).gateWritable = s.gateWritable := rfl
@[simp] theorem State.setSelectedROMBank_ramBankSel (s : State) (v : BitVec 5) : (s.setSelectedROMBank v).ramBankSel = s.ramBankSel := rfl
@[simp] theorem State.setSelectedROMBank_persist (s : State) (v : BitVec 5) : (s.setSelectedROMBank v).persist = s.persist := rfl
@[simp] theorem State.setSelectedRAMBank_ramAccessible (s : State) (v : BitVec 2) : (s.setSelectedRAMBank v).ramAccessible = s.ramAccessible := rfl
@[simp] theorem State.setSelectedRAMBank_gateWritable (s : State) (v : BitVec 2) : (s.setSelectedRAMBank v).gateWritable = s.gateWritable := rfl
@[simp] theorem State.setSelectedRAMBank_romBankExists (s : State) (v : BitVec 2) : (s.setSelectedRAMBank v).romBankExists = s.romBankExists := rfl
@[simp] theorem State.setSelectedRAMBank_persist (s : State) (v : BitVec 2) : (s.setSelectedRAMBank v).persist = s.persist := rfl
@[simp] theorem State.setMode_ramAccessible (s : State) (v : BitVec 1) : (s.setMode v).ramAccessible = s.ramAccessible := rfl
@[simp] theorem State.setMode_romBankExists (s : State) (v : BitVec 1) : (s.setMode v).romBankExists = s.romBankExists := rfl
@[simp] theorem State.setMode_persist (s : State) (v : BitVec 1) : (s.setMode v).persist = s.persist := rfl
@[simp] theorem State.ramWrite_ramAccessible (s : State) (b off : Nat) (v : Byte) : (s.ramWrite b off v).ramAccessible = s.ramAccessible := rfl
@[simp] theorem State.ramWrite_gateWritable (s : State) (b off : Nat) (v : Byte) : (s.ramWrite b off v).gateWritable = s.gateWritable := rfl
@[simp] theorem State.ramWrite_ramBankSel (s : State) (b off : Nat) (v : Byte) : (s.ramWrite b off v).ramBankSel = s.ramBankSel := rfl
@[simp] theorem State.ramWrite_romBankExists (s : State) (b off : Nat) (v : Byte) : (s.ramWrite b off v).romBankExists = s.romBankExists := rfl
@[simp] theorem State.ramWrite_persist (s : State) (b off : Nat) (v : Byte) : (s.ramWrite b off v).persist = s.persist := rfl
@[simp] theorem State.loadRamImage_ramAccessible (s : State) (bs : List Byte) : (s.loadRamImage bs).ramAccessible = s.ramAccessible := rfl
@[simp] theorem State.loadRamImage_gateWritable (s : State) (bs : List Byte) : (s.loadRamImage bs).gateWritable = s.gateWritable := rfl
@[simp] theorem State.loadRamImage_ramBankSel (s : State) (bs : List Byte) : (s.loadRamImage bs).ramBankSel = s.ramBankSel := rfl
@[simp] theorem State.loadRamImage_romBankExists (s : State) (bs : List Byte) : (s.loadRamImage bs).romBankExists = s.romBankExists := rfl
@[simp] theorem State.loadRamImage_persist (s : State) (bs : List Byte) : (s.loadRamImage bs).persist = s.persist := rfl
@[simp] theorem State.setSink_ramAccessible (s : State) (bs : List Byte) : (s.setSink bs).ramAccessible = s.ramAccessible := rfl
@[simp] theorem State.setSink_gateWritable (s : State) (bs : List Byte) : (s.setSink bs).gateWritable = s.gateWritable := rfl
@[simp] theorem State.setSink_ramBankSel (s : State) (bs : List Byte) : (s.setSink bs).ramBankSel = s.ramBankSel := rfl
@[simp] theorem State.setSink_romBankExists (s : State) (bs : List Byte) : (s.setSink bs).romBankExists = s.romBankExists := rfl
@[simp] theorem State.setSink_persist (s : State) (bs : List Byte) : (s.setSink bs).persist = s.persist := rfl
@[simp] theorem State.spoilSink_ramAccessible (s : State) : s.spoilSink.ramAccessible = s.ramAccessible := rfl
@[simp] theorem State.spoilSink_gateWritable (s : State) : s.spoilSink.gateWritable = s.gateWritable := rfl
@[simp] theorem State.spoilSink_ramBankSel (s : State) : s.spoilSink.ramBankSel = s.ramBankSel := rfl
@[simp] theorem State.spoilSink_romBankExists (s : State) : s.spoilSink.romBankExists = s.romBankExists := rfl
@[simp] theorem State.spoilSink_persist (s : State) : s.spoilSink.persist = s.persist := rfl
@[simp] theorem State.issue_ramAccessible (s : State) (r : Request) : (s.issue r).ramAccessible = s.ramAccessible := rfl
@[simp] theorem State.issue_gateWritable (s : State) (r : Request) : (s.issue r).gateWritable = s.gateWritable := rfl
@[simp] theorem State.issue_ramBankSel (s : State) (r : Request) : (s.issue r).ramBankSel = s.ramBankSel := rfl
@[simp] theorem State.issue_romBankExists (s : State) (r : Request) : (s.issue r).romBankExists = s.romBankExists := rfl
@[simp] theorem State.issue_persist (s : State) (r : Request) : (s.issue r).persist = s.persist := rfl

/-! ### Ending an operation -/

/-- An operation that completes answers the state with its result in place. -/
theorem State.done_eq (s : State) (r : OpResult) : s.done r = .next { s with result := r } := rfl

theorem State.done_eq_next (s t : State) (r : OpResult) : s.done r = .next t ↔ t = { s with result := r } := by
  simp [State.done_eq, eq_comm]

theorem State.done_ne_fault (s : State) (r : OpResult) (f : Fault) : s.done r ≠ .fault f := by
  simp [State.done_eq]

theorem State.done_ne_refused (s : State) (r : OpResult) (f : Refusal) : s.done r ≠ .refused f := by
  simp [State.done_eq]

theorem State.fail_eq (s : State) (e : OpError) : s.fail e = .next { s with result := .err e } := rfl

theorem raiseFault_eq (f : Fault) : raiseFault f = .fault f := rfl

/-! ### The machine an outcome leaves -/

@[simp] theorem State.after_next (s t : State) : s.after (.next t) = t := rfl
@[simp] theorem State.after_fault (s : State) (f : Fault) : s.after (.fault f) = { s with machine := .faulted f } := rfl
@[simp] theorem State.after_refused (s : State) (r : Refusal) : s.after (.refused r) = s := rfl

end Sys2Proof.Machine
end

