-- ==== Sys2Proof/Laws/Ops.lean ====
section
/-! SUPPORT. What each shared operation does, one law each: the data decodes as arithmetic, the RAM and its
image, the ROM, and taking an operation. -/

namespace Sys2Proof.Machine

/-! ### Data decodes as arithmetic (R51 to R54) -/

theorem gateEnable_iff (d : Byte) : gateEnable d = true ↔ d.toNat % 16 = 10 := by
  rw [gateEnable, beq_iff_eq, ← BitVec.toNat_inj, BitVec.extractLsb'_toNat]
  rfl

theorem romSelect_toNat (d : Byte) : (romSelect d).toNat = d.toNat % 32 := by
  rw [romSelect, BitVec.extractLsb'_toNat]; rfl

theorem ramSelect_toNat (d : Byte) : (ramSelect d).toNat = d.toNat % 4 := by
  rw [ramSelect, BitVec.extractLsb'_toNat]; rfl

theorem modeSelect_toNat (d : Byte) : (modeSelect d).toNat = d.toNat % 2 := by
  rw [modeSelect, BitVec.extractLsb'_toNat]; rfl

/-! ### The conditions spelt out -/

theorem ramPresent_iff (c : Config) : c.ramPresent = true ↔ 0 < c.ramSize := by simp [Config.ramPresent]

theorem State.ramAccessible_iff (s : State) :
    s.ramAccessible = true ↔ s.cfg.ramPresent = true ∧ s.ramEnabled = true := by simp [State.ramAccessible]

theorem State.ramAccessible_iff_size (s : State) :
    s.ramAccessible = true ↔ 0 < s.cfg.ramSize ∧ s.ramEnabled = true := by
  rw [State.ramAccessible_iff, ramPresent_iff]

theorem State.gateWritable_iff (s : State) :
    s.gateWritable = true ↔ s.cfg.ramPresent = true ∧ s.mode = 1#1 := by simp [State.gateWritable]

theorem State.romBankExists_iff (s : State) :
    s.romBankExists = true ↔ s.selectedROMBank.toNat < s.cfg.romSize / 0x4000 := by
  rw [State.romBankExists, Config.bankCount, decide_eq_true_iff]

theorem State.persist_iff (s : State) : s.persist = true ↔ s.cfg.ramPresent = true ∧ s.cfg.battery = true := by
  simp [State.persist]

theorem State.persist_iff_size (s : State) : s.persist = true ↔ 0 < s.cfg.ramSize ∧ s.cfg.battery = true := by
  rw [State.persist_iff, ramPresent_iff]

/-- The multiplexer always names one of the 4 banks (R18). -/
theorem State.ramBankSel_lt (s : State) : s.ramBankSel < 4 := by
  unfold State.ramBankSel
  have := s.selectedRAMBank.isLt
  split <;> omega

/-! ### RAM -/

/-- Two bytes of the banks lie at one place only when bank and offset agree. -/
theorem ramIndex_inj {b b' off off' : Nat} (h : off < 0x2000) (h' : off' < 0x2000) :
    ramIndex b off = ramIndex b' off' ↔ b = b' ∧ off = off' := by
  unfold ramIndex; omega

theorem ramIndex_lt {b off : Nat} (hb : b < 4) (h : off < 0x2000) : ramIndex b off < 0x8000 := by
  unfold ramIndex; omega

/-- A RAM write reaches one byte of one bank. -/
theorem State.ramRead_ramWrite (s : State) {b off b' off' : Nat} (v : Byte) (h : off < 0x2000) (h' : off' < 0x2000) :
    (s.ramWrite b off v).ramRead b' off' = if b' = b ∧ off' = off then v else s.ramRead b' off' := by
  unfold State.ramRead
  rw [State.ramWrite_ramBanks, Memory.read_write]
  by_cases hc : b' = b ∧ off' = off
  · rw [if_pos hc, if_pos ((ramIndex_inj h h').mpr ⟨hc.1.symm, hc.2.symm⟩)]
  · rw [if_neg hc, if_neg fun e => hc (by have := (ramIndex_inj h h').mp e; exact ⟨this.1.symm, this.2.symm⟩)]

/-- The byte of a loaded blob (R76). -/
theorem State.ramRead_loadRamImage (s : State) (bs : List Byte) (b off : Nat) :
    (s.loadRamImage bs).ramRead b off = bs.getD (ramIndex b off) 0#8 := by
  unfold State.ramRead
  rw [State.loadRamImage_ramBanks, Memory.read_ofBytes]

theorem length_flatMap_range (n k : Nat) (f : Nat → Nat → Byte) :
    ((List.range k).flatMap fun b => (List.range n).map (f b)).length = k * n := by
  simp [List.length_flatMap]

theorem State.ramImage_length (s : State) : s.ramImage.length = 0x8000 := by
  unfold State.ramImage
  exact length_flatMap_range 0x2000 4 fun b off => s.ramRead b off

/-- Concatenating equally long pieces puts byte `off` of piece `b` at `b * n + off`. -/
theorem getElem?_flatMap_range {n : Nat} (f : Nat → Nat → Byte) (k : Nat) {b off : Nat} (hb : b < k) (ho : off < n) :
    ((List.range k).flatMap fun b => (List.range n).map (f b))[b * n + off]? = some (f b off) := by
  have len := fun k => length_flatMap_range n k f
  induction k with
  | zero => omega
  | succ k ih =>
    rw [List.range_succ, List.flatMap_append]
    have hk : b * n + off < (b + 1) * n := by rw [Nat.add_mul]; omega
    by_cases hbk : b < k
    · have : (b + 1) * n ≤ k * n := Nat.mul_le_mul_right n hbk
      rw [List.getElem?_append_left (by rw [len]; omega)]
      exact ih hbk
    · have : b = k := by omega
      subst this
      rw [List.getElem?_append_right (by rw [len]; omega), len]
      simp [ho]

/-- The blob's layout (R74). -/
theorem State.ramImage_getElem? (s : State) {b off : Nat} (hb : b < 4) (ho : off < 0x2000) :
    s.ramImage[ramIndex b off]? = some (s.ramRead b off) := by
  unfold State.ramImage ramIndex
  exact getElem?_flatMap_range (fun b off => s.ramRead b off) 4 hb ho

/-- Reading the blob at any place is reading the RAM there. -/
theorem State.ramImage_getD (s : State) (h : Memory.Below 0x8000 s.ramBanks) (j : Nat) :
    s.ramImage.getD j 0#8 = Memory.read s.ramBanks j := by
  by_cases hj : j < 0x8000
  · have e : ramIndex (j / 0x2000) (j % 0x2000) = j := by unfold ramIndex; omega
    have := s.ramImage_getElem? (b := j / 0x2000) (off := j % 0x2000) (by omega) (by omega)
    rw [e] at this
    rw [List.getD_eq_getElem?_getD, this, Option.getD_some, State.ramRead, e]
  · rw [List.getD_eq_default _ _ (by rw [s.ramImage_length]; omega), Memory.read_of_below h (by omega)]

/-- Loading the blob of a canonical RAM gives that RAM back. -/
theorem Memory.ofBytes_ramImage (s : State) (h : Memory.Wf s.ramBanks) (hb : Memory.Below 0x8000 s.ramBanks) :
    Memory.ofBytes s.ramImage = s.ramBanks :=
  Memory.ext_of_wf (Memory.wf_ofBytes _) h fun a => by rw [Memory.read_ofBytes, s.ramImage_getD hb]

/-- The blob depends on the RAM alone (R77). -/
theorem State.ramImage_congr {s t : State} (h : s.ramBanks = t.ramBanks) : s.ramImage = t.ramImage := by
  unfold State.ramImage
  unfold State.ramRead
  rw [h]

/-! ### ROM -/

/-- A ROM image reads as the sequence it was made from (R10). -/
theorem RomImage.read_ofBytes (bs : List Byte) (o : Nat) :
    Memory.read (RomImage.ofBytes bs).cells o = bs.getD o 0#8 := Memory.read_ofBytes bs o

/-! ### Taking an operation -/

theorem State.takeOperation_eq_none (s : State) : s.takeOperation = none ↔ s.pending = [] := by
  unfold State.takeOperation
  cases s.pending <;> simp

theorem State.takeOperation_cons {s : State} {r : Request} {rest : List Request} (h : s.pending = r :: rest) :
    s.takeOperation = some (decode r.word, { s with pending := rest, host := r.host }) := by
  simp only [State.takeOperation, h]

end Sys2Proof.Machine
end

