-- ==== Sys2Proof/Laws/Construction.lean ====
section
/-! SUPPORT. When construction succeeds and what it leaves. -/

namespace Sys2Proof.Machine

/-- No precondition fails exactly when all three hold (R101). -/
theorem failedPreconditions_eq_nil (c : Construction) :
    failedPreconditions c = [] ↔ c.romSize % 0x4000 = 0 ∧ 0x8000 ≤ c.romSize ∧ c.romSize ≤ c.rom.length := by
  simp only [failedPreconditions, Precondition.holds, List.filter_cons, List.filter_nil, Bool.not_eq_true']
  split_ifs <;> simp_all

/-- Construction answers the fresh controller exactly when the preconditions hold. -/
theorem construct_eq_next (c : Construction) (s : State) :
    construct c = .next s ↔
      (c.romSize % 0x4000 = 0 ∧ 0x8000 ≤ c.romSize ∧ c.romSize ≤ c.rom.length) ∧ s = State.fresh (configOf c) := by
  rw [← failedPreconditions_eq_nil, construct]
  split
  · simp [*, eq_comm]
  · simp [*, raiseFault_eq]

/-- Construction that fails a precondition raises the fault with the failed ones (R87). -/
theorem construct_of_failed (c : Construction)
    (h : ¬ (c.romSize % 0x4000 = 0 ∧ 0x8000 ≤ c.romSize ∧ c.romSize ≤ c.rom.length)) :
    construct c = .fault (.constructRefused (failedPreconditions c)) := by
  rw [← failedPreconditions_eq_nil] at h
  rw [construct, if_neg h, raiseFault_eq]

/-- A precondition is listed exactly when it fails. -/
theorem mem_failedPreconditions (c : Construction) (p : Precondition) :
    p ∈ failedPreconditions c ↔ p.holds c = false := by
  cases p <;> simp [failedPreconditions]

/-- The default cartridge's image is blank and 0x10000 bytes long. -/
theorem blankCartridge_rom : RomImage.ofBytes Config.blankCartridge.rom = { length := 0x10000, cells := [] } := by
  have hl : Config.blankCartridge.rom.length = 0x10000 := List.length_replicate
  have hm : Memory.ofBytes Config.blankCartridge.rom = [] := Memory.ofBytes_replicate_zero _
  rw [RomImage.ofBytes, hl, hm]

end Sys2Proof.Machine
end

