-- ==== Sys2Proof/Laws/Decode.lean ====
section
/-! SUPPORT. The fields of a packed word, the windows as bit fields of the address, and what the decoder
reads from a kind, an address and a byte. -/

namespace Sys2Proof

/-! ### Packing and unpacking (R44) -/

theorem Word.kind_pack (k : BitVec 2) (a : Addr) (d : Byte) : Word.kind (Word.pack k a d) = k := by
  ext i hi
  simp only [Word.kind, Word.pack, BitVec.getElem_extractLsb', BitVec.getLsbD_or, BitVec.getLsbD_shiftLeft,
    BitVec.getLsbD_setWidth]
  have : i = 0 ∨ i = 1 := by omega
  rcases this with rfl | rfl <;> simp [BitVec.getLsbD_of_ge]

theorem Word.addr_pack (k : BitVec 2) (a : Addr) (d : Byte) : Word.addr (Word.pack k a d) = a := by
  ext i hi
  have h1 : i + 8 < 24 := by omega
  have h2 : i + 8 < 26 := by omega
  simp [Word.addr, Word.pack, BitVec.getLsbD_of_ge, Nat.add_comm 8 i, h1, h2, hi]

theorem Word.data_pack (k : BitVec 2) (a : Addr) (d : Byte) : Word.data (Word.pack k a d) = d := by
  ext i hi
  have h1 : i < 24 := by omega
  have h2 : i < 26 := by omega
  simp [Word.data, Word.pack, h1, h2, hi]

/-- A word is its three fields. -/
theorem Word.pack_fields (w : Word) : Word.pack (Word.kind w) (Word.addr w) (Word.data w) = w := by
  ext i hi
  simp only [Word.kind, Word.addr, Word.data, Word.pack, BitVec.getElem_or, BitVec.getElem_shiftLeft,
    BitVec.getElem_setWidth, BitVec.getLsbD_extractLsb']
  by_cases h8 : i < 8
  · have h24 : i < 24 := by omega
    simp [h8, h24, BitVec.getLsbD_eq_getElem hi]
  · by_cases h24 : i < 24
    · have e : 8 + (i - 8) = i := by omega
      have h : i - 8 < 16 := by omega
      simp [h8, h24, e, h, BitVec.getLsbD_eq_getElem hi]
    · have e : 24 + (i - 24) = i := by omega
      have h : i - 24 < 2 := by omega
      have h'' : ¬ i - 8 < 16 := by omega
      simp [h8, h24, e, h, h'', BitVec.getLsbD_eq_getElem hi]

/-- The fields as numbers. -/
theorem Word.toNat_fields (w : Word) :
    (Word.kind w).toNat = w.toNat / 2 ^ 24 ∧ (Word.addr w).toNat = w.toNat / 2 ^ 8 % 2 ^ 16 ∧
      (Word.data w).toNat = w.toNat % 2 ^ 8 := by
  have h := w.isLt
  simp only [Word.kind, Word.addr, Word.data, BitVec.extractLsb'_toNat, Nat.shiftRight_eq_div_pow]
  refine ⟨?_, trivial, ?_⟩ <;> omega

/-- A packed word as a number. -/
theorem Word.toNat_pack (k : BitVec 2) (a : Addr) (d : Byte) :
    (Word.pack k a d).toNat = k.toNat * 2 ^ 24 + a.toNat * 2 ^ 8 + d.toNat := by
  have h := Word.toNat_fields (Word.pack k a d)
  rw [Word.kind_pack, Word.addr_pack, Word.data_pack] at h
  have := (Word.pack k a d).isLt
  omega

/-- What the decoder makes of three fields. -/
theorem decode_pack (k : BitVec 2) (a : Addr) (d : Byte) :
    decode (Word.pack k a d) =
      if k = 0b00#2 then decodeRead a else if k = 0b01#2 then decodeWrite a d
      else if k = 0b10#2 then .saveRam else .loadRam := by
  simp only [decode, Word.kind_pack, Word.addr_pack, Word.data_pack]

theorem decode_read (a : Addr) (d : Byte) : decode (Word.pack 0b00#2 a d) = decodeRead a := by
  rw [decode_pack, if_pos rfl]

theorem decode_write (a : Addr) (d : Byte) : decode (Word.pack 0b01#2 a d) = decodeWrite a d := by
  rw [decode_pack, if_neg (by decide), if_pos rfl]

/-- Every word is a read, a write, a SaveRAM or a LoadRAM (R45). -/
theorem Word.kind_cases (k : BitVec 2) : k = 0b00#2 ∨ k = 0b01#2 ∨ k = 0b10#2 ∨ k = 0b11#2 := by
  revert k; decide

/-! ### Windows as bit fields (R47, R48): the boundaries are multiples of 0x2000 -/

theorem addr_top3 (a : Addr) (k : BitVec 3) : a.extractLsb' 13 3 = k ↔ a.toNat / 0x2000 = k.toNat := by
  have h := a.isLt
  rw [← BitVec.toNat_inj, BitVec.extractLsb'_toNat, Nat.shiftRight_eq_div_pow]
  omega

theorem addr_top2 (a : Addr) (k : BitVec 2) : a.extractLsb' 14 2 = k ↔ a.toNat / 0x4000 = k.toNat := by
  have h := a.isLt
  rw [← BitVec.toNat_inj, BitVec.extractLsb'_toNat, Nat.shiftRight_eq_div_pow]
  omega

theorem inWindow_iff (lo hi : Nat) (a : Addr) : inWindow lo hi a = true ↔ lo ≤ a.toNat ∧ a.toNat ≤ hi := by
  simp [inWindow]

/-- A write decodes by its address range (R47). -/
theorem decodeWrite_eq (a : Addr) (d : Byte) :
    decodeWrite a d =
      if a.toNat < 0x2000 then .wrRamg a d else if a.toNat < 0x4000 then .wrRomb a d
      else if a.toNat < 0x6000 then .wrRamb a d else if a.toNat < 0x8000 then .wrMode a d
      else if a.toNat < 0xA000 then .wrNop8 a d else if a.toNat < 0xC000 then .wrRam a d
      else .wrNopC a d := by
  have h := a.isLt
  simp only [decodeWrite, addr_top3, BitVec.toNat_ofNat]
  split_ifs <;> first | rfl | omega

/-- A read decodes by its address range, 0xC000 apart (R48). -/
theorem decodeRead_eq (a : Addr) :
    decodeRead a =
      if a.toNat < 0x4000 then .rdRom0 a else if a.toNat < 0x8000 then .rdRomx a
      else if a.toNat < 0xA000 then .rdOpen8 a else if a.toNat < 0xC000 then .rdRam a
      else if a.toNat = 0xC000 then .rdC000 else .rdOpenC a := by
  have h := a.isLt
  have hc : (a = 0xC000#16) = (a.toNat = 0xC000) := by
    rw [← BitVec.toNat_inj]; rfl
  simp only [decodeRead, addr_top3, addr_top2, hc, BitVec.toNat_ofNat]
  split_ifs <;> first | rfl | omega

/-- Every write is one of the seven rows, with its address range. -/
theorem decodeWrite_cases (a : Addr) (d : Byte) :
    (a.toNat < 0x2000 ∧ decodeWrite a d = .wrRamg a d) ∨
    (0x2000 ≤ a.toNat ∧ a.toNat < 0x4000 ∧ decodeWrite a d = .wrRomb a d) ∨
    (0x4000 ≤ a.toNat ∧ a.toNat < 0x6000 ∧ decodeWrite a d = .wrRamb a d) ∨
    (0x6000 ≤ a.toNat ∧ a.toNat < 0x8000 ∧ decodeWrite a d = .wrMode a d) ∨
    (0x8000 ≤ a.toNat ∧ a.toNat < 0xA000 ∧ decodeWrite a d = .wrNop8 a d) ∨
    (0xA000 ≤ a.toNat ∧ a.toNat < 0xC000 ∧ decodeWrite a d = .wrRam a d) ∨
    (0xC000 ≤ a.toNat ∧ decodeWrite a d = .wrNopC a d) := by
  rw [decodeWrite_eq]
  split_ifs <;> simp_all

/-- Every read is one of the six rows, with its address range. -/
theorem decodeRead_cases (a : Addr) :
    (a.toNat < 0x4000 ∧ decodeRead a = .rdRom0 a) ∨
    (0x4000 ≤ a.toNat ∧ a.toNat < 0x8000 ∧ decodeRead a = .rdRomx a) ∨
    (0x8000 ≤ a.toNat ∧ a.toNat < 0xA000 ∧ decodeRead a = .rdOpen8 a) ∨
    (0xA000 ≤ a.toNat ∧ a.toNat < 0xC000 ∧ decodeRead a = .rdRam a) ∨
    (a.toNat = 0xC000 ∧ decodeRead a = .rdC000) ∨
    (0xC000 < a.toNat ∧ decodeRead a = .rdOpenC a) := by
  rw [decodeRead_eq]
  split_ifs <;> simp_all
  omega

/-! ### What the decoder gives is well-formed, and which word encodes it -/

/-- The decoder reads the three fields and nothing else. -/
theorem decode_fields (w : Word) :
    decode w =
      if w.kind = 0b00#2 then decodeRead w.addr else if w.kind = 0b01#2 then decodeWrite w.addr w.data
      else if w.kind = 0b10#2 then .saveRam else .loadRam := rfl

/-- Every word is of one of the four kinds, and is decoded as its kind says (R45). -/
theorem decode_cases (w : Word) :
    (w.kind = 0b00#2 ∧ decode w = decodeRead w.addr) ∨ (w.kind = 0b01#2 ∧ decode w = decodeWrite w.addr w.data) ∨
    (w.kind = 0b10#2 ∧ decode w = .saveRam) ∨ (w.kind = 0b11#2 ∧ decode w = .loadRam) := by
  rw [decode_fields]
  rcases Word.kind_cases w.kind with h | h | h | h <;> rw [h] <;> simp

theorem wf_decodeWrite (a : Addr) (d : Byte) : (decodeWrite a d).wf = true := by
  have := a.isLt
  rw [decodeWrite_eq]
  split_ifs <;> simp only [Instr.wf, inWindow_iff] <;> omega

theorem wf_decodeRead (a : Addr) : (decodeRead a).wf = true := by
  have := a.isLt
  rw [decodeRead_eq]
  split_ifs <;> simp only [Instr.wf, inWindow_iff] <;> omega

/-- The decoder gives well-formed operations only. -/
theorem wf_decode (w : Word) : (decode w).wf = true := by
  rcases decode_cases w with ⟨-, e⟩ | ⟨-, e⟩ | ⟨-, e⟩ | ⟨-, e⟩ <;> rw [e]
  · exact wf_decodeRead _
  · exact wf_decodeWrite _ _
  · rfl
  · rfl

/-- A word that decodes to an operation with an address and a data byte is a write of that byte to that
address. -/
theorem fields_of_write {w : Word} {i : Instr} {a : Addr} {d : Byte} (h : decode w = i)
    (hi : i ∈ [.wrRamg a d, .wrRomb a d, .wrRamb a d, .wrMode a d, .wrRam a d, .wrNop8 a d, .wrNopC a d]) :
    w.kind = 0b01#2 ∧ w.addr = a ∧ w.data = d := by
  subst h
  rcases decode_cases w with ⟨hk, e⟩ | ⟨hk, e⟩ | ⟨hk, e⟩ | ⟨hk, e⟩ <;> rw [e] at hi
  · rcases decodeRead_cases w.addr with ⟨-, e⟩ | ⟨-, -, e⟩ | ⟨-, -, e⟩ | ⟨-, -, e⟩ | ⟨-, e⟩ | ⟨-, e⟩ <;>
      rw [e] at hi <;> simp at hi
  · refine ⟨hk, ?_⟩
    rcases decodeWrite_cases w.addr w.data with
      ⟨-, e⟩ | ⟨-, -, e⟩ | ⟨-, -, e⟩ | ⟨-, -, e⟩ | ⟨-, -, e⟩ | ⟨-, -, e⟩ | ⟨-, e⟩ <;>
      rw [e] at hi <;> simpa using hi
  · simp at hi
  · simp at hi

/-- A word that decodes to a LoadRAM is of kind 11. -/
theorem kind_of_loadRam {w : Word} (h : decode w = .loadRam) : w.kind = 0b11#2 := by
  rcases decode_cases w with ⟨hk, e⟩ | ⟨hk, e⟩ | ⟨hk, e⟩ | ⟨hk, e⟩ <;> rw [e] at h
  · rcases decodeRead_cases w.addr with ⟨-, e⟩ | ⟨-, -, e⟩ | ⟨-, -, e⟩ | ⟨-, -, e⟩ | ⟨-, e⟩ | ⟨-, e⟩ <;>
      rw [e] at h <;> cases h
  · rcases decodeWrite_cases w.addr w.data with
      ⟨-, e⟩ | ⟨-, -, e⟩ | ⟨-, -, e⟩ | ⟨-, -, e⟩ | ⟨-, -, e⟩ | ⟨-, -, e⟩ | ⟨-, e⟩ <;> rw [e] at h <;> cases h
  · cases h
  · exact hk

theorem encode_decodeWrite (a : Addr) (d : Byte) : encode (decodeWrite a d) = Word.pack 0b01#2 a d := by
  simp only [decodeWrite]
  split_ifs <;> rfl

theorem encode_decodeRead (a : Addr) : encode (decodeRead a) = Word.pack 0b00#2 a 0#8 := by
  simp only [decodeRead]
  split_ifs <;> first | rfl | (subst_vars; rfl)

/-! ### Rows of the opcode map: every mask keeps the bits from some bit up -/

theorem Word.and_mask (w v : Word) {n : Nat} (hn : n ≤ 26) (hv : (v.toNat % 2 ^ n) = 0) :
    w &&& (BitVec.allOnes 26 <<< n) = v ↔ w.toNat / 2 ^ n = v.toNat / 2 ^ n := by
  have e : w &&& (BitVec.allOnes 26 <<< n) = (w >>> n) <<< n := by
    ext i hi
    by_cases h : i < n
    · simp [h]
    · have e : n + (i - n) = i := by omega
      have h' : i - n < 26 := by omega
      simp only [BitVec.getElem_and, BitVec.getElem_shiftLeft, BitVec.getElem_allOnes, BitVec.getElem_ushiftRight,
        h, e, decide_false, Bool.not_false, Bool.and_true, Bool.true_and, BitVec.getLsbD_eq_getElem hi]
  have hw := w.isLt
  have hp : 0 < 2 ^ n := Nat.two_pow_pos n
  have hd : w.toNat / 2 ^ n * 2 ^ n ≤ w.toNat := Nat.div_mul_le_self _ _
  have hdv := Nat.div_add_mod v.toNat (2 ^ n)
  rw [e, ← BitVec.toNat_inj, BitVec.toNat_shiftLeft, BitVec.toNat_ushiftRight, Nat.shiftRight_eq_div_pow,
    Nat.shiftLeft_eq, Nat.mod_eq_of_lt (by omega)]
  constructor
  · intro h
    rw [← h, Nat.mul_div_cancel _ hp]
  · intro h
    rw [h]
    rw [hv, Nat.mul_comm] at hdv
    omega

/-- A word matches a row when its bits from bit `n` up are those of the row's value. -/
theorem OpcodeRow.matches_iff (r : OpcodeRow) (w : Word) {n : Nat} (hn : n ≤ 26) (hm : r.mask = BitVec.allOnes 26 <<< n)
    (hv : r.value.toNat % 2 ^ n = 0) : r.matches w = true ↔ w.toNat / 2 ^ n = r.value.toNat / 2 ^ n := by
  rw [OpcodeRow.matches, beq_iff_eq, hm, Word.and_mask w _ hn hv]

end Sys2Proof
end

