-- ==== Sys2Proof/Laws/Exec.lean ====
section
/-! SUPPORT. What one operation can do, said once: every outcome of every meaning, the conditions
included. Later proofs cite these and unfold no meaning. -/

namespace Sys2Proof.Machine

/-! ### Each meaning, as the next state it answers -/

theorem exec_wrRamg (a : Addr) (d : Byte) (s : State) :
    exec (.wrRamg a d) s =
      .next { s with ramEnabled := if s.gateWritable then gateEnable d else s.ramEnabled, result := .nothing } := by
  show execWrRamg a d s = _
  unfold execWrRamg
  split <;> rfl

theorem exec_wrRomb (a : Addr) (d : Byte) (s : State) :
    exec (.wrRomb a d) s = .next { s with selectedROMBank := romSelect d, result := .nothing } := rfl

theorem exec_wrRamb (a : Addr) (d : Byte) (s : State) :
    exec (.wrRamb a d) s = .next { s with selectedRAMBank := ramSelect d, result := .nothing } := rfl

theorem exec_wrMode (a : Addr) (d : Byte) (s : State) :
    exec (.wrMode a d) s = .next { s with mode := modeSelect d, result := .nothing } := rfl

theorem exec_wrRam (a : Addr) (d : Byte) (s : State) :
    exec (.wrRam a d) s =
      .next { s with
        ramBanks := if s.ramAccessible then Memory.write s.ramBanks (ramIndex s.ramBankSel (ramOffset a)) d
          else s.ramBanks
        result := .nothing } := by
  show execWrRam a d s = _
  unfold execWrRam
  split <;> rfl

theorem exec_wrNop8 (a : Addr) (d : Byte) (s : State) :
    exec (.wrNop8 a d) s = .next { s with result := .nothing } := rfl

theorem exec_wrNopC (a : Addr) (d : Byte) (s : State) :
    exec (.wrNopC a d) s = .next { s with result := .nothing } := rfl

theorem exec_rdRom0 (a : Addr) (s : State) :
    exec (.rdRom0 a) s = .next { s with result := .byte (s.romByte a.toNat) } := rfl

theorem exec_rdRomx (a : Addr) (s : State) :
    exec (.rdRomx a) s =
      if s.romBankExists then
        .next { s with result := .byte (s.romByte (romBankOffset s.selectedROMBank.toNat (romxOffset a))) }
      else .fault (.romBankOutOfRange s.selectedROMBank s.cfg.bankCount) := rfl

theorem exec_rdOpen8 (a : Addr) (s : State) :
    exec (.rdOpen8 a) s = .next { s with result := .byte 0x00#8 } := rfl

theorem exec_rdRam (a : Addr) (s : State) :
    exec (.rdRam a) s =
      .next { s with
        result := .byte (if s.ramAccessible then s.ramRead s.ramBankSel (ramOffset a) else 0x00#8) } := rfl

theorem exec_rdC000 (s : State) :
    exec .rdC000 s =
      if s.ramAccessible then .fault (.ramReadPastBank 0xC000#16) else .next { s with result := .byte 0x00#8 } := rfl

theorem exec_rdOpenC (a : Addr) (s : State) :
    exec (.rdOpenC a) s = .next { s with result := .byte 0x00#8 } := rfl

/-! SaveRAM and LoadRAM, one law for each branch (R75, R76, R92) -/

theorem exec_saveRam_noWork {s : State} (hp : s.persist = false) :
    exec .saveRam s = .next { s with result := .ok } := by
  show execSaveRam s = _
  simp only [execSaveRam, hp, Bool.false_eq_true, if_false, State.done_eq]

theorem exec_saveRam_ok {s : State} (hp : s.persist = true) (ho : s.host.saveOutcome = .ok) :
    exec .saveRam s = .next { s with sink := s.ramImage, result := .ok } := by
  show execSaveRam s = _
  simp only [execSaveRam, hp, if_true, ho, State.done_eq, State.setSink]

theorem exec_saveRam_ioError {s : State} {e : StorageError} (hp : s.persist = true)
    (ho : s.host.saveOutcome = .ioError e) :
    exec .saveRam s = .next { s with
      sink := Config.freeSink s.freeDraws
      freeDraws := s.freeDraws + 1
      result := .err (.storageIo e) } := by
  show execSaveRam s = _
  simp only [execSaveRam, hp, if_true, ho, State.fail_eq, State.spoilSink]

theorem exec_loadRam_noWork {s : State} (hp : s.persist = false) :
    exec .loadRam s = .next { s with result := .ok } := by
  show execLoadRam s = _
  simp only [execLoadRam, hp, Bool.false_eq_true, if_false, State.done_eq]

theorem exec_loadRam_absent {s : State} (hp : s.persist = true) (ho : s.host.loadSource = .absent) :
    exec .loadRam s = .next { s with result := .ok } := by
  show execLoadRam s = _
  simp only [execLoadRam, hp, if_true, ho, State.done_eq]

theorem exec_loadRam_ioError {s : State} {e : StorageError} (hp : s.persist = true)
    (ho : s.host.loadSource = .ioError e) :
    exec .loadRam s = .next { s with result := .err (.storageIo e) } := by
  show execLoadRam s = _
  simp only [execLoadRam, hp, if_true, ho, State.fail_eq]

theorem exec_loadRam_malformed {s : State} {bs : List Byte} (hp : s.persist = true)
    (ho : s.host.loadSource = .bytes bs) (hl : bs.length ≠ 32768) :
    exec .loadRam s = .next { s with result := .err (.malformedSave bs.length) } := by
  show execLoadRam s = _
  simp only [execLoadRam, hp, if_true, ho, State.fail_eq]
  rw [if_neg hl]

theorem exec_loadRam_bytes {s : State} {bs : List Byte} (hp : s.persist = true)
    (ho : s.host.loadSource = .bytes bs) (hl : bs.length = 32768) :
    exec .loadRam s = .next { s with ramBanks := Memory.ofBytes bs, result := .ok } := by
  show execLoadRam s = _
  simp only [execLoadRam, hp, if_true, ho, State.done_eq, State.loadRamImage]
  rw [if_pos hl]

/-- Every branch of SaveRAM. -/
theorem exec_saveRam (s : State) :
    (s.persist = false ∧ exec .saveRam s = .next { s with result := .ok }) ∨
    (s.persist = true ∧ s.host.saveOutcome = .ok ∧
      exec .saveRam s = .next { s with sink := s.ramImage, result := .ok }) ∨
    (s.persist = true ∧ ∃ e, s.host.saveOutcome = .ioError e ∧
      exec .saveRam s = .next { s with
        sink := Config.freeSink s.freeDraws
        freeDraws := s.freeDraws + 1
        result := .err (.storageIo e) }) := by
  cases hp : s.persist
  · exact .inl ⟨rfl, exec_saveRam_noWork hp⟩
  · cases ho : s.host.saveOutcome with
    | ok => exact .inr (.inl ⟨rfl, rfl, exec_saveRam_ok hp ho⟩)
    | ioError e => exact .inr (.inr ⟨rfl, e, rfl, exec_saveRam_ioError hp ho⟩)

/-- Every branch of LoadRAM. -/
theorem exec_loadRam (s : State) :
    (s.persist = false ∧ exec .loadRam s = .next { s with result := .ok }) ∨
    (s.persist = true ∧ s.host.loadSource = .absent ∧ exec .loadRam s = .next { s with result := .ok }) ∨
    (s.persist = true ∧ ∃ e, s.host.loadSource = .ioError e ∧
      exec .loadRam s = .next { s with result := .err (.storageIo e) }) ∨
    (s.persist = true ∧ ∃ bs, s.host.loadSource = .bytes bs ∧ bs.length ≠ 32768 ∧
      exec .loadRam s = .next { s with result := .err (.malformedSave bs.length) }) ∨
    (s.persist = true ∧ ∃ bs, s.host.loadSource = .bytes bs ∧ bs.length = 32768 ∧
      exec .loadRam s = .next { s with ramBanks := Memory.ofBytes bs, result := .ok }) := by
  cases hp : s.persist
  · exact .inl ⟨rfl, exec_loadRam_noWork hp⟩
  · cases ho : s.host.loadSource with
    | absent => exact .inr (.inl ⟨rfl, rfl, exec_loadRam_absent hp ho⟩)
    | ioError e => exact .inr (.inr (.inl ⟨rfl, e, rfl, exec_loadRam_ioError hp ho⟩))
    | bytes bs =>
      by_cases hl : bs.length = 32768
      · exact .inr (.inr (.inr (.inr ⟨rfl, bs, rfl, hl, exec_loadRam_bytes hp ho hl⟩)))
      · exact .inr (.inr (.inr (.inl ⟨rfl, bs, rfl, hl, exec_loadRam_malformed hp ho hl⟩)))

/-! ### All operations at once -/

/-- Everything an operation that completes can do: write one register, one RAM byte, the whole RAM from a
source, the sink, or nothing but its result. -/
theorem exec_next_cases {i : Instr} {s t : State} (h : exec i s = .next t) :
    (∃ a d, i = .wrRamg a d ∧ t = { s with
      ramEnabled := if s.gateWritable then gateEnable d else s.ramEnabled, result := .nothing }) ∨
    (∃ a d, i = .wrRomb a d ∧ t = { s with selectedROMBank := romSelect d, result := .nothing }) ∨
    (∃ a d, i = .wrRamb a d ∧ t = { s with selectedRAMBank := ramSelect d, result := .nothing }) ∨
    (∃ a d, i = .wrMode a d ∧ t = { s with mode := modeSelect d, result := .nothing }) ∨
    (∃ a d, i = .wrRam a d ∧ s.ramAccessible = true ∧ t = { s with
      ramBanks := Memory.write s.ramBanks (ramIndex s.ramBankSel (ramOffset a)) d, result := .nothing }) ∨
    (i = .saveRam ∧ s.persist = true ∧ ∃ sk n r, t = { s with sink := sk, freeDraws := n, result := r }) ∨
    (i = .loadRam ∧ s.persist = true ∧ ∃ bs, s.host.loadSource = .bytes bs ∧ bs.length = 32768 ∧
      t = { s with ramBanks := Memory.ofBytes bs, result := .ok }) ∨
    (∃ r, t = { s with result := r }) := by
  cases i with
  | wrRamg a d => rw [exec_wrRamg] at h; cases h; exact .inl ⟨a, d, rfl, rfl⟩
  | wrRomb a d => rw [exec_wrRomb] at h; cases h; exact .inr (.inl ⟨a, d, rfl, rfl⟩)
  | wrRamb a d => rw [exec_wrRamb] at h; cases h; exact .inr (.inr (.inl ⟨a, d, rfl, rfl⟩))
  | wrMode a d => rw [exec_wrMode] at h; cases h; exact .inr (.inr (.inr (.inl ⟨a, d, rfl, rfl⟩)))
  | wrRam a d =>
    rw [exec_wrRam] at h; cases h
    cases hr : s.ramAccessible
    · exact .inr (.inr (.inr (.inr (.inr (.inr (.inr ⟨.nothing, by simp⟩))))))
    · exact .inr (.inr (.inr (.inr (.inl ⟨a, d, rfl, rfl, by simp⟩))))
  | wrNop8 a d => rw [exec_wrNop8] at h; cases h; exact .inr (.inr (.inr (.inr (.inr (.inr (.inr ⟨_, rfl⟩))))))
  | wrNopC a d => rw [exec_wrNopC] at h; cases h; exact .inr (.inr (.inr (.inr (.inr (.inr (.inr ⟨_, rfl⟩))))))
  | rdRom0 a => rw [exec_rdRom0] at h; cases h; exact .inr (.inr (.inr (.inr (.inr (.inr (.inr ⟨_, rfl⟩))))))
  | rdRomx a =>
    rw [exec_rdRomx] at h
    split at h
    · cases h; exact .inr (.inr (.inr (.inr (.inr (.inr (.inr ⟨_, rfl⟩))))))
    · cases h
  | rdOpen8 a => rw [exec_rdOpen8] at h; cases h; exact .inr (.inr (.inr (.inr (.inr (.inr (.inr ⟨_, rfl⟩))))))
  | rdRam a => rw [exec_rdRam] at h; cases h; exact .inr (.inr (.inr (.inr (.inr (.inr (.inr ⟨_, rfl⟩))))))
  | rdC000 =>
    rw [exec_rdC000] at h
    split at h
    · cases h
    · cases h; exact .inr (.inr (.inr (.inr (.inr (.inr (.inr ⟨_, rfl⟩))))))
  | rdOpenC a => rw [exec_rdOpenC] at h; cases h; exact .inr (.inr (.inr (.inr (.inr (.inr (.inr ⟨_, rfl⟩))))))
  | saveRam =>
    obtain ⟨-, e⟩ | ⟨hp, -, e⟩ | ⟨hp, x, -, e⟩ := exec_saveRam s <;> rw [e] at h <;> cases h
    · exact .inr (.inr (.inr (.inr (.inr (.inr (.inr ⟨_, rfl⟩))))))
    · exact .inr (.inr (.inr (.inr (.inr (.inl ⟨rfl, hp, _, _, _, rfl⟩)))))
    · exact .inr (.inr (.inr (.inr (.inr (.inl ⟨rfl, hp, _, _, _, rfl⟩)))))
  | loadRam =>
    obtain ⟨-, e⟩ | ⟨-, -, e⟩ | ⟨-, x, -, e⟩ | ⟨-, bs, -, -, e⟩ | ⟨hp, bs, hb, hl, e⟩ := exec_loadRam s <;>
      rw [e] at h <;> cases h
    · exact .inr (.inr (.inr (.inr (.inr (.inr (.inr ⟨_, rfl⟩))))))
    · exact .inr (.inr (.inr (.inr (.inr (.inr (.inr ⟨_, rfl⟩))))))
    · exact .inr (.inr (.inr (.inr (.inr (.inr (.inr ⟨_, rfl⟩))))))
    · exact .inr (.inr (.inr (.inr (.inr (.inr (.inr ⟨_, rfl⟩))))))
    · exact .inr (.inr (.inr (.inr (.inr (.inr (.inl ⟨rfl, hp, bs, hb, hl, rfl⟩))))))

end Sys2Proof.Machine
end

