-- ==== Sys2Proof/Laws/OpcodeMap.lean ====
section
/-! SUPPORT. The opcode map as arithmetic on the word: when a word matches a row of each mask, and the
mnemonic the decoder gives a word. -/

namespace Sys2Proof

theorem OpcodeRow.matches_mask21 (m : String) (v : Word) (w : Word) (q : Nat) (hv : v.toNat % 2^21 = 0 ∧ v.toNat / 2^21 = q) :
    OpcodeRow.matches ⟨m, v, 0x3E00000⟩ w = decide (w.toNat / 2^21 = q) := by
  have := OpcodeRow.matches_iff ⟨m, v, 0x3E00000⟩ w (n := 21) (by decide) (show (0x3E00000 : Word) = _ by decide) hv.1
  rw [hv.2] at this
  rw [Bool.eq_iff_iff, this, decide_eq_true_iff]
theorem OpcodeRow.matches_mask22 (m : String) (v : Word) (w : Word) (q : Nat) (hv : v.toNat % 2^22 = 0 ∧ v.toNat / 2^22 = q) :
    OpcodeRow.matches ⟨m, v, 0x3C00000⟩ w = decide (w.toNat / 2^22 = q) := by
  have := OpcodeRow.matches_iff ⟨m, v, 0x3C00000⟩ w (n := 22) (by decide) (show (0x3C00000 : Word) = _ by decide) hv.1
  rw [hv.2] at this
  rw [Bool.eq_iff_iff, this, decide_eq_true_iff]
theorem OpcodeRow.matches_mask24 (m : String) (v : Word) (w : Word) (q : Nat) (hv : v.toNat % 2^24 = 0 ∧ v.toNat / 2^24 = q) :
    OpcodeRow.matches ⟨m, v, 0x3000000⟩ w = decide (w.toNat / 2^24 = q) := by
  have := OpcodeRow.matches_iff ⟨m, v, 0x3000000⟩ w (n := 24) (by decide) (show (0x3000000 : Word) = _ by decide) hv.1
  rw [hv.2] at this
  rw [Bool.eq_iff_iff, this, decide_eq_true_iff]
theorem OpcodeRow.matches_mask8 (m : String) (v : Word) (w : Word) (q : Nat) (hv : v.toNat % 2^8 = 0 ∧ v.toNat / 2^8 = q) :
    OpcodeRow.matches ⟨m, v, 0x3FFFF00⟩ w = decide (w.toNat / 2^8 = q) := by
  have := OpcodeRow.matches_iff ⟨m, v, 0x3FFFF00⟩ w (n := 8) (by decide) (show (0x3FFFF00 : Word) = _ by decide) hv.1
  rw [hv.2] at this
  rw [Bool.eq_iff_iff, this, decide_eq_true_iff]

/-- The mnemonic a word decodes to, from its five highest bits and whether its address is 0xC000 on a read. -/
def mnemonicOfTop (t : Nat) (c : Bool) : String :=
   if t / 8 = 0 then
     if t < 2 then "RD_ROM0" else if t < 4 then "RD_ROMX" else if t = 4 then "RD_OPEN_8"
     else if t = 5 then "RD_RAM" else if c then "RD_C000" else "RD_OPEN_C"
   else if t / 8 = 1 then
     if t = 8 then "WR_RAMG" else if t = 9 then "WR_ROMB" else if t = 10 then "WR_RAMB"
     else if t = 11 then "WR_MODE" else if t = 12 then "WR_NOP_8" else if t = 13 then "WR_RAM" else "WR_NOP_C"
   else if t / 8 = 2 then "SAVE_RAM" else "LOAD_RAM"

theorem decodeRead_mnemonic (a : Addr) : (decodeRead a).mnemonic = mnemonicOfTop (a.toNat / 0x2000) (decide (a.toNat = 0xC000)) := by
  have h := a.isLt
  have hc : (a = 0xC000#16) = (a.toNat = 0xC000) := by rw [← BitVec.toNat_inj]; rfl
  simp only [decodeRead, addr_top3, addr_top2, hc, BitVec.toNat_ofNat]
  have e : a.toNat / 0x4000 = a.toNat / 0x2000 / 2 := by omega
  have hl : a.toNat / 0x2000 < 8 := by omega
  rw [e]
  generalize a.toNat / 0x2000 = t at hl
  have : ∀ c : Prop, [Decidable c] → (if t / 2 = 0 % 2 ^ 2 then Instr.rdRom0 a else if t / 2 = 1 % 2 ^ 2 then .rdRomx a else if t = 4 % 2 ^ 3 then .rdOpen8 a
    else if t = 5 % 2 ^ 3 then .rdRam a else if c then .rdC000 else .rdOpenC a).mnemonic = mnemonicOfTop t (decide c) := by
    intro c _
    by_cases hc : c <;> simp only [hc, decide_true, decide_false, if_true, if_false]
    · interval_cases t <;> rfl
    · interval_cases t <;> rfl
  exact this _

theorem decodeWrite_mnemonic (a : Addr) (d : Byte) (c : Bool) : (decodeWrite a d).mnemonic = mnemonicOfTop (a.toNat / 0x2000 + 8) c := by
  have h := a.isLt
  simp only [decodeWrite, addr_top3, BitVec.toNat_ofNat]
  have hl : a.toNat / 0x2000 < 8 := by omega
  generalize a.toNat / 0x2000 = t at hl
  interval_cases t <;> rfl

theorem decode_mnemonic (w : Word) : (decode w).mnemonic = mnemonicOfTop (w.toNat / 2^21) (decide (w.toNat / 2^8 = 0xC000)) := by
  obtain ⟨hk, ha, -⟩ := Word.toNat_fields w
  have hw := w.isLt
  rw [decode_fields]
  rcases Word.kind_cases w.kind with h | h | h | h <;> rw [h] at hk ⊢ <;> simp only [BitVec.toNat_ofNat] at hk
  · rw [if_pos rfl, decodeRead_mnemonic, show w.addr.toNat / 0x2000 = w.toNat / 2^21 by omega, show w.addr.toNat = w.toNat / 2^8 by omega]
  · rw [if_neg (by decide), if_pos rfl, decodeWrite_mnemonic _ _ (decide (w.toNat / 2^8 = 0xC000)), show w.addr.toNat / 0x2000 + 8 = w.toNat / 2^21 by omega]
  · have : w.toNat / 2^21 / 8 = 2 := by omega
    rw [mnemonicOfTop, this]; rfl
  · have : w.toNat / 2^21 / 8 = 3 := by omega
    rw [mnemonicOfTop, this]; rfl

end Sys2Proof
end

