-- ==== Sys2Proof/Laws/PerInstr.lean ====
section
/-! SUPPORT. For every operation: the word of a well-formed one matches its own row of the opcode map. -/

namespace Sys2Proof.Laws.EncodeInRow

/-- The encoded word of a well-formed operation matches the row of its mnemonic. -/
def Statement (i : Instr) : Prop :=
  i.wf = true → ∃ r ∈ opcodeMap, r.mnemonic = i.mnemonic ∧ r.matches (encode i) = true

/-- The shape of every lemma below: the row at place `j` has the mnemonic, and the word's bits from bit `n` up are
`q`, as the row's are. -/
theorem of_row {i : Instr} (j n q : Nat) (r : OpcodeRow) (hr : opcodeMap[j]? = some r) (hm : r.mnemonic = i.mnemonic)
    (hn : n ≤ 26) (hmask : r.mask = BitVec.allOnes 26 <<< n)
    (hv : r.value.toNat % 2 ^ n = 0 ∧ r.value.toNat / 2 ^ n = q)
    (h : i.wf = true → (encode i).toNat / 2 ^ n = q) : Statement i := fun hw =>
  ⟨r, List.mem_of_getElem? hr, hm, (r.matches_iff (encode i) hn hmask hv.1).mpr (by rw [h hw, hv.2])⟩

theorem wrRamg (a : Addr) (d : Byte) : Statement (.wrRamg a d) :=
  of_row 0 21 8 _ rfl rfl (by decide) (by decide) (by decide) fun h => by
    simp only [Instr.wf, inWindow_iff] at h
    simp only [encode, Word.toNat_pack, BitVec.toNat_ofNat]
    omega

theorem wrRomb (a : Addr) (d : Byte) : Statement (.wrRomb a d) :=
  of_row 1 21 9 _ rfl rfl (by decide) (by decide) (by decide) fun h => by
    simp only [Instr.wf, inWindow_iff] at h
    simp only [encode, Word.toNat_pack, BitVec.toNat_ofNat]
    omega

theorem wrRamb (a : Addr) (d : Byte) : Statement (.wrRamb a d) :=
  of_row 2 21 10 _ rfl rfl (by decide) (by decide) (by decide) fun h => by
    simp only [Instr.wf, inWindow_iff] at h
    simp only [encode, Word.toNat_pack, BitVec.toNat_ofNat]
    omega

theorem wrMode (a : Addr) (d : Byte) : Statement (.wrMode a d) :=
  of_row 3 21 11 _ rfl rfl (by decide) (by decide) (by decide) fun h => by
    simp only [Instr.wf, inWindow_iff] at h
    simp only [encode, Word.toNat_pack, BitVec.toNat_ofNat]
    omega

theorem wrRam (a : Addr) (d : Byte) : Statement (.wrRam a d) :=
  of_row 4 21 13 _ rfl rfl (by decide) (by decide) (by decide) fun h => by
    simp only [Instr.wf, inWindow_iff] at h
    simp only [encode, Word.toNat_pack, BitVec.toNat_ofNat]
    omega

theorem wrNop8 (a : Addr) (d : Byte) : Statement (.wrNop8 a d) :=
  of_row 5 21 12 _ rfl rfl (by decide) (by decide) (by decide) fun h => by
    simp only [Instr.wf, inWindow_iff] at h
    simp only [encode, Word.toNat_pack, BitVec.toNat_ofNat]
    omega

theorem wrNopC (a : Addr) (d : Byte) : Statement (.wrNopC a d) :=
  of_row 6 22 7 _ rfl rfl (by decide) (by decide) (by decide) fun h => by
    simp only [Instr.wf, inWindow_iff] at h
    simp only [encode, Word.toNat_pack, BitVec.toNat_ofNat]
    omega

theorem rdRom0 (a : Addr) : Statement (.rdRom0 a) :=
  of_row 7 22 0 _ rfl rfl (by decide) (by decide) (by decide) fun h => by
    simp only [Instr.wf, inWindow_iff] at h
    simp only [encode, Word.toNat_pack, BitVec.toNat_ofNat]
    omega

theorem rdRomx (a : Addr) : Statement (.rdRomx a) :=
  of_row 8 22 1 _ rfl rfl (by decide) (by decide) (by decide) fun h => by
    simp only [Instr.wf, inWindow_iff] at h
    simp only [encode, Word.toNat_pack, BitVec.toNat_ofNat]
    omega

theorem rdOpen8 (a : Addr) : Statement (.rdOpen8 a) :=
  of_row 9 21 4 _ rfl rfl (by decide) (by decide) (by decide) fun h => by
    simp only [Instr.wf, inWindow_iff] at h
    simp only [encode, Word.toNat_pack, BitVec.toNat_ofNat]
    omega

theorem rdRam (a : Addr) : Statement (.rdRam a) :=
  of_row 10 21 5 _ rfl rfl (by decide) (by decide) (by decide) fun h => by
    simp only [Instr.wf, inWindow_iff] at h
    simp only [encode, Word.toNat_pack, BitVec.toNat_ofNat]
    omega

theorem rdC000 : Statement .rdC000 :=
  of_row 11 8 49152 _ rfl rfl (by decide) (by decide) (by decide) fun _ => by decide

theorem rdOpenC (a : Addr) : Statement (.rdOpenC a) :=
  of_row 12 22 3 _ rfl rfl (by decide) (by decide) (by decide) fun h => by
    simp only [Instr.wf, inWindow_iff] at h
    simp only [encode, Word.toNat_pack, BitVec.toNat_ofNat]
    omega

theorem saveRam : Statement .saveRam :=
  of_row 13 24 2 _ rfl rfl (by decide) (by decide) (by decide) fun _ => by decide

theorem loadRam : Statement .loadRam :=
  of_row 14 24 3 _ rfl rfl (by decide) (by decide) (by decide) fun _ => by decide

end Sys2Proof.Laws.EncodeInRow
end

