-- ==== Sys2Proof/Laws/Step.lean ====
section
/-! SUPPORT. What one step can do, said once. -/

namespace Sys2Proof.Machine

theorem machineStatus_cases (m : MachineStatus) : m = .running ∨ ∃ f, m = .faulted f := by
  cases m <;> simp

theorem pending_cases (l : List Request) : l = [] ∨ ∃ r rest, l = r :: rest := by
  cases l <;> simp

theorem step_faulted {s : State} {f : Fault} (h : s.machine = .faulted f) : step s = .fault f := by
  simp only [step, h]

theorem step_idle {s : State} (h : s.machine = .running) (hp : s.pending = []) : step s = .next s := by
  simp only [step, h, (s.takeOperation_eq_none).mpr hp]

theorem step_cons {s : State} {r : Request} {rest : List Request} (h : s.machine = .running)
    (hp : s.pending = r :: rest) : step s = exec (decode r.word) { s with pending := rest, host := r.host } := by
  simp only [step, h, State.takeOperation_cons hp]

/-- A step that completes was idle, or ran the earliest operation issued. -/
theorem step_next_cases {s t : State} (h : step s = .next t) :
    s.machine = .running ∧
      ((s.pending = [] ∧ t = s) ∨
        ∃ r rest, s.pending = r :: rest ∧
          exec (decode r.word) { s with pending := rest, host := r.host } = .next t) := by
  rcases machineStatus_cases s.machine with hm | ⟨f, hm⟩
  · refine ⟨hm, ?_⟩
    rcases pending_cases s.pending with hp | ⟨r, rest, hp⟩
    · rw [step_idle hm hp] at h; cases h; exact .inl ⟨hp, rfl⟩
    · rw [step_cons hm hp] at h; exact .inr ⟨r, rest, hp, h⟩
  · rw [step_faulted hm] at h; cases h

/-! ### Runs -/

theorem reaches_zero {s u : State} : Reaches s 0 u ↔ u = s := by
  show Host.Outcome.next s = .next u ↔ u = s
  simp [eq_comm]

theorem reaches_succ {k : Nat} {s u : State} : Reaches s (k + 1) u ↔ ∃ t, step s = .next t ∧ Reaches t k u := by
  cases h : step s with
  | next t =>
    have h' : Sys2Proof.core.step s = .next t := h
    simp only [Reaches, Host.Core.run, h', Host.Outcome.next.injEq, exists_eq_left']
  | fault f =>
    have h' : Sys2Proof.core.step s = .fault f := h
    simp only [Reaches, Host.Core.run, h', reduceCtorEq, false_and, exists_false]
  | refused r =>
    have h' : Sys2Proof.core.step s = .refused r := h
    simp only [Reaches, Host.Core.run, h', reduceCtorEq, false_and, exists_false]

/-- A property that every step keeps holds of every state a run reaches. -/
theorem reaches_induction {P : State → Prop} (hstep : ∀ s t, P s → step s = .next t → P t) {k : Nat} {s u : State}
    (hs : P s) (h : Reaches s k u) : P u := by
  induction k generalizing s with
  | zero => rw [reaches_zero] at h; exact h ▸ hs
  | succ k ih =>
    obtain ⟨t, ht, h⟩ := reaches_succ.mp h
    exact ih (hstep s t hs ht) h

end Sys2Proof.Machine
end

