-- ==== Sys2Proof/Tests/Slice0.lean ====
section
/-! SUPPORT. Tests of single operations, and a witness for the hypotheses of every statement. The expected
values are those of 95_test_vectors.md unless a comment names a rule. -/

namespace Sys2Proof.Tests

open Sys2Proof Sys2Proof.Machine

/-! ### Well-formedness refuses an address outside the window (R27) -/

theorem test_wf_refuses_wrRamg_above : Instr.wf (.wrRamg 0x2000 0x0A) = false := by decide
theorem test_wf_refuses_wrRomb_outside :
    Instr.wf (.wrRomb 0x1FFF 0x01) = false ∧ Instr.wf (.wrRomb 0x4000 0x01) = false := by decide
theorem test_wf_refuses_wrRamb_outside :
    Instr.wf (.wrRamb 0x3FFF 0x01) = false ∧ Instr.wf (.wrRamb 0x6000 0x01) = false := by decide
theorem test_wf_refuses_wrMode_outside :
    Instr.wf (.wrMode 0x5FFF 0x01) = false ∧ Instr.wf (.wrMode 0x8000 0x01) = false := by decide
theorem test_wf_refuses_wrNop8_outside :
    Instr.wf (.wrNop8 0x7FFF 0x01) = false ∧ Instr.wf (.wrNop8 0xA000 0x01) = false := by decide
theorem test_wf_refuses_wrRam_outside :
    Instr.wf (.wrRam 0x9FFF 0x01) = false ∧ Instr.wf (.wrRam 0xC000 0x01) = false := by decide
theorem test_wf_refuses_wrNopC_below : Instr.wf (.wrNopC 0xBFFF 0x01) = false := by decide
theorem test_wf_refuses_rdRom0_above : Instr.wf (.rdRom0 0x4000) = false := by decide
theorem test_wf_refuses_rdRomx_outside :
    Instr.wf (.rdRomx 0x3FFF) = false ∧ Instr.wf (.rdRomx 0x8000) = false := by decide
theorem test_wf_refuses_rdOpen8_outside :
    Instr.wf (.rdOpen8 0x7FFF) = false ∧ Instr.wf (.rdOpen8 0xA000) = false := by decide
theorem test_wf_refuses_rdRam_outside :
    Instr.wf (.rdRam 0x9FFF) = false ∧ Instr.wf (.rdRam 0xC000) = false := by decide
theorem test_wf_refuses_rdOpenC_at_C000 : Instr.wf (.rdOpenC 0xC000) = false := by decide

/-! ### Decoding, each word written out as `K`, `A` and `D` (R44, section 2.1 of the vectors) -/

theorem test_decode_wrRamg : decode 0b01000111111111111100001010#26 = .wrRamg 0x1FFF 0x0A := by decide
theorem test_decode_wrRomb : decode 0b01001111111111111100111110#26 = .wrRomb 0x3FFF 0x3E := by decide
theorem test_decode_wrRamb : decode 0b01010000000000000000000000#26 = .wrRamb 0x4000 0x00 := by decide
theorem test_decode_wrMode : decode 0b01011111111111111100000001#26 = .wrMode 0x7FFF 0x01 := by decide
theorem test_decode_wrNop8 : decode 0b01100111111111111100000000#26 = .wrNop8 0x9FFF 0x00 := by decide
theorem test_decode_wrRam : decode 0b01101000000000000010101011#26 = .wrRam 0xA000 0xAB := by decide
theorem test_decode_wrNopC :
    decode 0b01110000000000000000010010#26 = .wrNopC 0xC000 0x12 ∧
    decode 0b01111111111111111111111111#26 = .wrNopC 0xFFFF 0xFF := by decide
theorem test_decode_rdRom0 : decode 0b00001111111111111100000000#26 = .rdRom0 0x3FFF := by decide
theorem test_decode_rdRomx :
    decode 0b00010000000000000000000000#26 = .rdRomx 0x4000 ∧
    decode 0b00011111111111111100000000#26 = .rdRomx 0x7FFF := by decide
theorem test_decode_rdOpen8 : decode 0b00100000000000000000000000#26 = .rdOpen8 0x8000 := by decide
theorem test_decode_rdRam : decode 0b00101000000000000001010101#26 = .rdRam 0xA000 := by decide
theorem test_decode_rdC000 : decode 0b00110000000000000000000000#26 = .rdC000 := by decide
theorem test_decode_rdOpenC :
    decode 0b00110000000000000100000000#26 = .rdOpenC 0xC001 ∧
    decode 0b00111111111111111100000000#26 = .rdOpenC 0xFFFF := by decide
theorem test_decode_saveRam : decode 0b10101010111100110111101111#26 = .saveRam := by decide
theorem test_decode_loadRam : decode 0b11111111111111111111111111#26 = .loadRam := by decide

/-- R44: a number with a bit above bit 25 is no operation word. -/
theorem test_decode_rejects_wide_number :
    decodeNumber 0x4000000 = .error (.notAnOperationWord 0x4000000) ∧ decodeTableWord 32 0x4000000 = none := by
  decide

/-! ### Configurations and states of the vectors -/

/-- The bytes of the vectors' ROM image T64 that the tests read. -/
def t64 : RomImage where
  length := 0x10000
  cells := [(0x0001, 0x01), (0x3FFF, 0x0F), (0x4000, 0x10), (0x4005, 0x15), (0x7FFF, 0x1F), (0x8005, 0x25),
    (0xC005, 0x35), (0xFFFF, 0x3F)]

/-- CFG_A at reset. -/
def stateA : State := State.fresh { rom := t64, romSize := 0x10000, ramSize := 0x8000, battery := true }

/-- A cartridge of CFG_B's sizes at reset: 32 banks and no RAM. -/
def stateB : State :=
  State.fresh { rom := { length := 0x80000, cells := [] }, romSize := 0x80000, ramSize := 0, battery := false }

/-- CFG_C at reset: RAM without a battery. -/
def stateC : State := State.fresh { rom := t64, romSize := 0x10000, ramSize := 0x2000, battery := false }

/-- CFG_D at reset: a battery without RAM. -/
def stateD : State := State.fresh { rom := t64, romSize := 0x10000, ramSize := 0, battery := true }

/-- CFG_A in mode 1. -/
def stateA1 : State := { stateA with mode := 1#1 }

/-- CFG_A in mode 1 with the gate closed. -/
def stateClosed : State := { stateA1 with ramEnabled := false }

def storageError : StorageError := { id := 7 }

/-- The state a step leads to when the operation of a word is issued. -/
def after (s : State) (w : Word) : Option State :=
  match step (s.issuing w s.host) with
  | .next t => some t
  | .fault _ => none
  | .refused _ => none

/-- The result of that step. -/
def resultOf (s : State) (w : Word) : Option OpResult := (after s w).map (·.result)

/-- The fault of that step. -/
def faultOf (s : State) (w : Word) : Option Fault :=
  match step (s.issuing w s.host) with
  | .next _ => none
  | .fault f => some f
  | .refused _ => none

/-! ### Bus writes (section 2.2) -/

theorem test_wrRamg_decodes_the_low_nibble :
    ((after stateClosed 0x11FFF1A).map (·.ramEnabled), (after stateA1 0x11FFFA0).map (·.ramEnabled)) =
      (some true, some false) := by decide
theorem test_wrRamg_ignored_in_mode_0_and_without_ram :
    ((after stateA 0x1000000).map (·.ramEnabled), (after { stateD with mode := 1 } 0x100000A).map (·.ramEnabled)) =
      (some true, some false) := by decide
theorem test_wrRomb_masks_to_five_bits :
    ((after stateA 0x120001F).map (·.selectedROMBank), (after stateA 0x13FFF21).map (·.selectedROMBank)) =
      (some 31, some 1) := by decide
theorem test_wrRomb_stores_zero_raw :
    (after { stateA with selectedROMBank := 3 } 0x1200020).map (·.selectedROMBank) = some 0 := by decide
theorem test_wrRamb_masks_to_two_bits :
    ((after stateA 0x15FFF07).map (·.selectedRAMBank), (after stateA 0x14000FE).map (·.selectedRAMBank)) =
      (some 3, some 2) := by decide
theorem test_wrRamb_stores_without_ram : (after stateD 0x1400003).map (·.selectedRAMBank) = some 3 := by decide
theorem test_wrMode_takes_bit_0 :
    ((after stateA 0x17FFF03).map (·.mode), (after stateA1 0x16000FE).map (·.mode)) = (some 1, some 0) := by decide
theorem test_wrMode_keeps_the_gate :
    (after stateClosed 0x1600000).map (fun t => (t.mode, t.ramEnabled)) = some (0, false) := by decide
theorem test_wrRam_follows_the_mode :
    ((after { stateA with selectedRAMBank := 3 } 0x1BFFF5A).map (·.ramRead 0 0x1FFF),
      (after { stateA1 with selectedRAMBank := 3 } 0x1BFFF5A).map (·.ramRead 3 0x1FFF)) =
      (some 0x5A, some 0x5A) := by decide
theorem test_wrRam_discarded_when_closed :
    ((after stateClosed 0x1A0005A).map (·.ramBanks), (after stateD 0x1A00055).map (·.ramBanks)) =
      (some [], some []) := by decide
theorem test_wrNop8_changes_nothing : after stateA 0x18000FF = some stateA := by decide
theorem test_wrNopC_changes_nothing : after stateA 0x1C00012 = some stateA := by decide

/-! ### Bus reads (section 2.3) -/

theorem test_rdRom0 :
    (resultOf stateA 0x0000000, resultOf { stateA1 with selectedROMBank := 3 } 0x03FFF00) =
      (some (.byte 0x00), some (.byte 0x0F)) := by decide
theorem test_rdRomx_selector_0_shows_bank_1 :
    (resultOf stateA 0x0400000, resultOf stateA 0x07FFF00) = (some (.byte 0x10), some (.byte 0x1F)) := by decide
theorem test_rdRomx_selected_bank_and_missing_bank :
    (resultOf { stateA1 with selectedROMBank := 2 } 0x0400500, resultOf { stateA with selectedROMBank := 3 } 0x07FFF00,
      faultOf { stateA with selectedROMBank := 4 } 0x0400500) =
      (some (.byte 0x25), some (.byte 0x3F), some (.romBankOutOfRange 4 4)) := by decide
theorem test_rdOpen8 : (resultOf stateA 0x0800000, resultOf stateA 0x09FFF00) =
    (some (.byte 0x00), some (.byte 0x00)) := by decide
theorem test_rdRam_reads_the_selected_bank :
    (resultOf { stateA with ramBanks := [(0, 0x5A)] } 0x0A00000,
      resultOf { stateA1 with ramBanks := [(0, 0x5A)], selectedRAMBank := 1 } 0x0A00000,
      resultOf { stateA1 with ramBanks := [(0x4010, 0xAB)], selectedRAMBank := 2 } 0x0A01000) =
      (some (.byte 0x5A), some (.byte 0x00), some (.byte 0xAB)) := by decide
theorem test_rdRam_closed_is_open_bus :
    resultOf { stateClosed with ramBanks := [(0, 0x5A)] } 0x0A00000 = some (.byte 0x00) := by decide
theorem test_rdC000 :
    (faultOf stateA 0x0C00000, resultOf stateClosed 0x0C00000, resultOf stateD 0x0C00000) =
      (some (.ramReadPastBank 0xC000), some (.byte 0x00), some (.byte 0x00)) := by decide
theorem test_rdOpenC : (resultOf stateA 0x0C00100, resultOf stateA 0x0FFFF00) =
    (some (.byte 0x00), some (.byte 0x00)) := by decide

/-! ### Persistence (section 2.4) -/

/-- "saved while disabled": bank 0 offset 0 holds 0x07, and the gate is closed. -/
theorem test_saveRam_saves_while_disabled :
    ∃ t, exec .saveRam { stateClosed with ramBanks := [(0, 0x07)] } = .next t ∧ t.result = .ok ∧
      t.sink.length = 32768 ∧ t.sink[0]? = some 0x07 := by
  refine ⟨_, exec_saveRam_ok (by decide) rfl, rfl, State.ramImage_length _, ?_⟩
  exact (State.ramImage_getElem? _ (b := 0) (off := 0) (by decide) (by decide)).trans (by decide)
theorem test_saveRam_error_and_no_work :
    (resultOf { stateA with host := { saveOutcome := .ioError storageError, loadSource := .absent } } 0x2000000,
      (after stateC 0x2000000).map (fun t => (t.result, t.sink))) =
      (some (.err (.storageIo storageError)), some (.ok, [])) := by decide
theorem test_loadRam_results :
    (resultOf { stateA with host := { saveOutcome := .ok, loadSource := .bytes [1, 2, 3] } } 0x3000000,
      resultOf { stateA with host := { saveOutcome := .ok, loadSource := .ioError storageError } } 0x3000000,
      (after { stateA with ramBanks := [(0, 0x09)] } 0x3000000).map (fun t => (t.result, t.ramBanks))) =
      (some (.err (.malformedSave 3)), some (.err (.storageIo storageError)), some (.ok, [(0, 0x09)])) := by decide
/-- `LOAD 32768 x 0x01`: every RAM byte is 0x01. -/
theorem test_loadRam_replaces_every_byte :
    ∃ t, exec .loadRam { stateClosed with
        host := { saveOutcome := .ok, loadSource := .bytes (List.replicate 32768 0x01#8) } } = .next t ∧
      t.result = .ok ∧ t.ramRead 0 0 = 0x01#8 ∧ t.ramRead 3 0x1FFF = 0x01#8 := by
  refine ⟨_, exec_loadRam_bytes (by decide) rfl List.length_replicate, rfl, ?_, ?_⟩ <;>
    (unfold State.ramRead; rw [Memory.read_ofBytes, List.getD_eq_getElem?_getD, List.getElem?_replicate]; rfl)

/-! ### Construction (section 2.5) and the machine -/

theorem test_construct_refused_lists_both (rom : List Byte) (h : rom.length = 0x10000) :
    construct { rom := rom, romSize := 0x6000, ramSize := 0, battery := false } =
      .fault (.constructRefused [.romSizeMultiple, .romSizeMinimum]) := by
  simp [construct, failedPreconditions, Precondition.holds, h, raiseFault]
theorem test_construct_ram_size_1 (rom : List Byte) (h : rom.length = 0x10000) :
    ∃ s, construct { rom := rom, romSize := 0x10000, ramSize := 1, battery := false } = .next s ∧
      s.cfg.bankCount = 4 ∧ s.cfg.ramPresent = true ∧ s.ramEnabled = true ∧ s.mode = 0 := by
  refine ⟨_, (construct_eq_next _ _).mpr ⟨⟨?_, ?_, h.symm.le⟩, rfl⟩, ?_⟩
  · show 0x10000 % 0x4000 = 0
    decide
  · show 0x8000 ≤ 0x10000
    decide
  · simp [State.fresh, configOf, Config.bankCount, Config.ramPresent]

/-- Program P6: after the fault no further operation steps (R84). -/
theorem test_fault_is_sticky :
    faultOf { stateA with machine := .faulted (.romBankOutOfRange 4 4) } 0x0000000 =
      some (.romBankOutOfRange 4 4) := by decide

/-- Writing 0x00 removes the entry, so equal memories are equal lists. -/
theorem test_memory_write_zero_removes :
    Memory.write [(3, 0x11), (5, 0x22)] 3 0x00 = [(5, 0x22)] ∧
    Memory.write [(3, 0x11), (5, 0x22)] 4 0x33 = [(3, 0x11), (4, 0x33), (5, 0x22)] := by decide

theorem test_reset_memory_wf : Memory.Wf State.reset.ramBanks := by decide

theorem test_outcome_codes :
    [Fault.code (.constructRefused []), Fault.code (.romBankOutOfRange 4 4), Fault.code (.ramReadPastBank 0xC000)] =
      [0x81, 0x82, 0x83] ∧
    [OpResult.code .ok, OpResult.code (.err (.malformedSave 100)), OpResult.code (.err (.storageIo storageError))] =
      [0x00, 0x01, 0x02] := by decide

/-- The host's two questions, on the first row of the opcode table. -/
theorem test_placed_word_runs :
    decodeTableWord 32 0x1600001 = some (.wrMode 0x6000 0x01) ∧
    (match step (State.reset.withFetchWord 32 0x1600001) with
      | .next t => some (t.mode, t.pending)
      | .fault _ => none
      | .refused _ => none) = some (1, []) := by decide

/-! ### Witnesses: for each statement with hypotheses, a concrete case that meets all of them, at the
boundaries of its clauses -/

/-- The smallest cartridge construction accepts. -/
def smallCartridge : Construction :=
  { rom := List.replicate 0x8000 0x00#8, romSize := 0x8000, ramSize := 0, battery := false }

theorem witness_ConstructionGivesTheResetValues :
    smallCartridge.romSize % 0x4000 = 0 ∧ 0x8000 ≤ smallCartridge.romSize ∧
      smallCartridge.romSize ≤ smallCartridge.rom.length :=
  ⟨by decide, by decide, (List.length_replicate).symm.le⟩

/-- One refused construction for each precondition alone. -/
theorem witness_RefusedConstructionListsEveryFailure :
    (0x8001 % 0x4000 ≠ 0 ∧ 0x8000 ≤ 0x8001 ∧ 0x8001 ≤ (List.replicate 0x8001 0x00#8).length) ∧
    (0x4000 % 0x4000 = 0 ∧ ¬ 0x8000 ≤ 0x4000 ∧ 0x4000 ≤ (List.replicate 0x4000 0x00#8).length) ∧
    (0x8000 % 0x4000 = 0 ∧ 0x8000 ≤ 0x8000 ∧ ¬ 0x8000 ≤ (List.replicate 0x7FFF 0x00#8).length) := by
  simp only [List.length_replicate]; decide

theorem witness_ConstructedControllerMeetsInvariant :
    construct smallCartridge = .next (State.fresh (configOf smallCartridge)) :=
  (construct_eq_next _ _).mpr ⟨witness_ConstructionGivesTheResetValues, rfl⟩

/-- Every row at the lowest and the highest address of its window. -/
theorem witness_DecodeOfEncodeIsTheOperation :
    [Instr.wrRamg 0x0000 0x00, .wrRamg 0x1FFF 0xFF, .wrRomb 0x2000 0x00, .wrRomb 0x3FFF 0xFF, .wrRamb 0x4000 0x00,
      .wrRamb 0x5FFF 0xFF, .wrMode 0x6000 0x00, .wrMode 0x7FFF 0xFF, .wrNop8 0x8000 0x00, .wrNop8 0x9FFF 0xFF,
      .wrRam 0xA000 0x00, .wrRam 0xBFFF 0xFF, .wrNopC 0xC000 0x00, .wrNopC 0xFFFF 0xFF, .rdRom0 0x0000,
      .rdRom0 0x3FFF, .rdRomx 0x4000, .rdRomx 0x7FFF, .rdOpen8 0x8000, .rdOpen8 0x9FFF, .rdRam 0xA000,
      .rdRam 0xBFFF, .rdC000, .rdOpenC 0xC001, .rdOpenC 0xFFFF, .saveRam, .loadRam].all Instr.wf = true := by decide

theorem witness_OnlyTheC000RowsOverlap :
    ∃ r ∈ opcodeMap, ∃ r' ∈ opcodeMap, r.matches 0x0C00000 = true ∧ r'.matches 0x0C00000 = true ∧ r ≠ r' := by decide

theorem witness_StepRunsTheEarliestOperation :
    stateA.machine = .running ∧
      (stateA.issuing 0x1600001 stateA.host).pending = { word := 0x1600001, host := stateA.host } :: [] := by decide

theorem witness_StepWithNothingIssuedChangesNothing :
    State.reset.machine = .running ∧ State.reset.pending = [] := by decide

theorem witness_PlacedWordRunsNext :
    State.reset.machine = .running ∧ 0 < 2 ^ 26 ∧ 0x3FFFFFF < 2 ^ 26 := by decide

theorem witness_FaultsAreStickyAndChangeNothing :
    faultOf stateA 0x0C00000 = some (.ramReadPastBank 0xC000) := by decide

/-- Open in mode 0, open in mode 1, closed, and without RAM; at both ends of the window. -/
theorem witness_WrRamStoresOneByteOfTheSelectedBank :
    Instr.wf (.wrRam 0xA000 0x5A) = true ∧ Instr.wf (.wrRam 0xBFFF 0x5A) = true ∧
    (0 < stateA.cfg.ramSize ∧ stateA.ramEnabled = true) ∧ (0 < stateA1.cfg.ramSize ∧ stateA1.ramEnabled = true) ∧
    ¬ (0 < stateClosed.cfg.ramSize ∧ stateClosed.ramEnabled = true) ∧
    ¬ (0 < stateD.cfg.ramSize ∧ stateD.ramEnabled = true) := by decide

theorem witness_WrRamgWritesTheGateOnlyInMode1WithRam :
    (0 < stateA1.cfg.ramSize ∧ stateA1.mode = 1#1) ∧ ¬ (0 < stateA.cfg.ramSize ∧ stateA.mode = 1#1) ∧
    ¬ (0 < stateD.cfg.ramSize ∧ stateD.mode = 1#1) := by decide

theorem witness_BusWriteChangesAtMostOneTarget :
    [Instr.wrRamg 0 0, .wrRomb 0x2000 0, .wrRamb 0x4000 0, .wrMode 0x6000 0, .wrRam 0xA000 0, .wrNop8 0x8000 0,
      .wrNopC 0xC000 0].all Instr.isWrite = true := by decide

theorem witness_BusWritesAreIdempotent :
    Instr.isWrite (.wrRomb 0x2000 0x02) = true ∧
    exec (.wrRomb 0x2000 0x02) stateA = .next { stateA with selectedROMBank := 2#5 } := ⟨rfl, rfl⟩

/-- The registers, and bank 0's first and last byte. -/
structure Registers where
  gate : Bool
  romSel : BitVec 5
  ramSel : BitVec 2
  mode : BitVec 1
  first : Byte
  last : Byte
  deriving DecidableEq, Repr

/-- What a bus write of 0x02 leaves. -/
def afterWrite (s : State) (a : Addr) : Option Registers :=
  match s.busWrite a 0x02 with
  | .next t => some ⟨t.ramEnabled, t.selectedROMBank, t.selectedRAMBank, t.mode, t.ramRead 0 0, t.ramRead 0 0x1FFF⟩
  | .fault _ => none
  | .refused _ => none

/-- The hypothesis, and each clause at both ends of its window, from mode 1 with the gate open (R59 to R65). -/
theorem witness_BusWritesFollowTheAddressMap :
    stateA1.machine = .running ∧ stateClosed.machine = .running ∧
    [0x0000, 0x1FFF].map (afterWrite stateA1) = List.replicate 2 (some ⟨false, 0, 0, 1, 0x00, 0x00⟩) ∧
    [0x2000, 0x3FFF].map (afterWrite stateA1) = List.replicate 2 (some ⟨true, 2, 0, 1, 0x00, 0x00⟩) ∧
    [0x4000, 0x5FFF].map (afterWrite stateA1) = List.replicate 2 (some ⟨true, 0, 2, 1, 0x00, 0x00⟩) ∧
    [0x6000, 0x7FFF].map (afterWrite stateA1) = List.replicate 2 (some ⟨true, 0, 0, 0, 0x00, 0x00⟩) ∧
    [0xA000, 0xBFFF].map (afterWrite stateA1) = [some ⟨true, 0, 0, 1, 0x02, 0x00⟩, some ⟨true, 0, 0, 1, 0x00, 0x02⟩] ∧
    [0x8000, 0x9FFF, 0xC000, 0xFFFF].map (afterWrite stateA1) = List.replicate 4 (some ⟨true, 0, 0, 1, 0x00, 0x00⟩) ∧
    [0xA000, 0xBFFF].map (afterWrite stateClosed) = List.replicate 2 (some ⟨false, 0, 0, 1, 0x00, 0x00⟩) :=
  ⟨by decide, by decide, by decide, by decide, by decide, by decide, by decide, by decide, by decide⟩

theorem witness_GateWriteBeforeModeSelectIsLost :
    0 < stateA.cfg.ramSize ∧ stateA.mode = 0#1 ∧ (0x01#8).toNat % 2 = 1 := by decide

/-- A ROM of 2 banks, its bytes all 0x00, with selector 1, the highest that exists, and selector 0. -/
def stateSmall (k : BitVec 5) : State := { State.fresh (configOf smallCartridge) with selectedROMBank := k }

theorem witness_RdRom0ReturnsTheFixedBankByte :
    Instr.wf (.rdRom0 0x0000) = true ∧ Instr.wf (.rdRom0 0x3FFF) = true ∧
    (stateSmall 0).cfg.rom = RomImage.ofBytes smallCartridge.rom := ⟨by decide, by decide, rfl⟩

theorem witness_RdRomxReturnsTheSelectedBankByte :
    Instr.wf (.rdRomx 0x4000) = true ∧ Instr.wf (.rdRomx 0x7FFF) = true ∧
    (∀ k, (stateSmall k).cfg.rom = RomImage.ofBytes smallCartridge.rom) ∧
    (stateSmall 0).selectedROMBank.toNat < (stateSmall 0).cfg.romSize / 0x4000 ∧
    (stateSmall 1).selectedROMBank.toNat < (stateSmall 1).cfg.romSize / 0x4000 :=
  ⟨by decide, by decide, fun _ => rfl, Nat.lt_of_sub_pos (by decide), Nat.lt_of_sub_pos (by decide)⟩

theorem witness_RdRomxFaultsOnAMissingBank :
    stateA.cfg.romSize / 0x4000 ≤ { stateA with selectedROMBank := 4#5 }.selectedROMBank.toNat := by decide

theorem witness_RdRamReturnsTheGatedByte :
    Instr.wf (.rdRam 0xA000) = true ∧ Instr.wf (.rdRam 0xBFFF) = true ∧
    (0 < stateA.cfg.ramSize ∧ stateA.ramEnabled = true) ∧ (0 < stateA1.cfg.ramSize ∧ stateA1.ramEnabled = true) ∧
    ¬ (0 < stateClosed.cfg.ramSize ∧ stateClosed.ramEnabled = true) := by decide

theorem witness_RdC000ReturnsZeroWithRamClosed :
    ¬ (0 < stateClosed.cfg.ramSize ∧ stateClosed.ramEnabled = true) ∧
    ¬ (0 < stateD.cfg.ramSize ∧ stateD.ramEnabled = true) := by decide

theorem witness_RdC000FaultsWithRamOpen : 0 < stateA.cfg.ramSize ∧ stateA.ramEnabled = true := by decide

theorem witness_BusReadsNeverChangeState :
    Instr.isRead (.rdOpen8 0x8000) = true ∧
    exec (.rdOpen8 0x8000) stateA = .next { stateA with result := .byte 0x00#8 } := ⟨rfl, rfl⟩

/-- What the bus master sees of a bus read: a byte, or the number of the fault (R83). -/
def seen (s : State) (a : Addr) : Option Byte × Option Byte :=
  match s.busRead a with
  | .next t => (match t.result with | .byte b => some b | .nothing | .ok | .err _ => none, none)
  | .fault f => (none, some f.code)
  | .refused _ => (none, none)

/-- CFG_A with a byte in bank 0's first and last place. -/
def stateRam : State := { stateA with ramBanks := [(0x0000, 0x5A), (0x1FFF, 0xA5)] }

/-- The hypothesis, and each branch at both ends of its window (R67 to R72): an existing bank, a missing bank, RAM
open and RAM closed. -/
theorem witness_BusReadsFollowTheAddressMap :
    stateRam.machine = .running ∧
    [0x0000, 0x3FFF].map (seen stateRam) = [(some 0x00, none), (some 0x0F, none)] ∧
    [0x4000, 0x7FFF].map (seen stateRam) = [(some 0x10, none), (some 0x1F, none)] ∧
    seen { stateRam with selectedROMBank := 3#5 } 0x7FFF = (some 0x3F, none) ∧
    [0x4000, 0x7FFF].map (seen { stateRam with selectedROMBank := 4#5 }) = List.replicate 2 (none, some 0x82) ∧
    [0x8000, 0x9FFF, 0xC001, 0xFFFF].map (seen stateRam) = List.replicate 4 (some 0x00, none) ∧
    [0xA000, 0xBFFF, 0xC000].map (seen stateRam) = [(some 0x5A, none), (some 0xA5, none), (none, some 0x83)] ∧
    [0xA000, 0xBFFF, 0xC000].map (seen { stateRam with ramEnabled := false }) =
      List.replicate 3 (some 0x00, none) :=
  ⟨by decide, by decide, by decide, by decide, by decide, by decide, by decide, by decide⟩

theorem stateA_inv : stateA.Inv := by decide

theorem witness_RomxReadsStayInTheDeclaredRom :
    stateA.Inv ∧ Instr.wf (.rdRomx 0x4000) = true ∧ Instr.wf (.rdRomx 0x7FFF) = true ∧
    (∃ t, exec (.rdRomx 0x4000) stateA = .next t) ∧
    (∃ t, exec (.rdRomx 0x7FFF) { stateA with selectedROMBank := 3#5 } = .next t) :=
  ⟨stateA_inv, by decide, by decide, ⟨_, rfl⟩, ⟨_, rfl⟩⟩

theorem witness_RomAndRamMappingsAreIndependent :
    stateA.cfg = stateClosed.cfg ∧ stateA.selectedROMBank = stateClosed.selectedROMBank ∧ stateA ≠ stateClosed := by
  decide

/-- The host's operands: a save that succeeds, and a load of the given source. -/
def loading (src : LoadSource) : HostOperands := { saveOutcome := .ok, loadSource := src }

theorem witness_SaveRamHandsOverTheBlob :
    0 < stateClosed.cfg.ramSize ∧ stateClosed.cfg.battery = true ∧ stateClosed.host.saveOutcome = .ok := by decide

theorem witness_SaveRamReportsTheStorageError :
    0 < stateA.cfg.ramSize ∧ stateA.cfg.battery = true ∧
    { stateA with host := { saveOutcome := .ioError storageError, loadSource := .absent } }.host.saveOutcome =
      .ioError storageError := by decide

theorem witness_PersistenceDoesNoWorkWithoutRamAndBattery :
    ¬ (0 < stateC.cfg.ramSize ∧ stateC.cfg.battery = true) ∧ ¬ (0 < stateD.cfg.ramSize ∧ stateD.cfg.battery = true) := by
  decide

theorem witness_LoadRamReplacesEveryByte :
    0 < stateA.cfg.ramSize ∧ stateA.cfg.battery = true ∧
    { stateA with host := loading (.bytes (List.replicate 32768 0x01#8)) }.host.loadSource =
      .bytes (List.replicate 32768 0x01#8) ∧ (List.replicate 32768 0x01#8).length = 32768 :=
  ⟨by decide, by decide, rfl, List.length_replicate⟩

/-- A source that is empty, one byte short, and one byte long. -/
theorem witness_LoadRamRejectsAWrongLength :
    0 < stateA.cfg.ramSize ∧ stateA.cfg.battery = true ∧
    (∀ n, { stateA with host := loading (.bytes (List.replicate n 0x01#8)) }.host.loadSource =
      .bytes (List.replicate n 0x01#8)) ∧
    (List.replicate 0 0x01#8).length ≠ 32768 ∧ (List.replicate 32767 0x01#8).length ≠ 32768 ∧
    (List.replicate 32769 0x01#8).length ≠ 32768 := by
  refine ⟨by decide, by decide, fun _ => rfl, ?_⟩
  simp only [List.length_replicate]; decide

theorem witness_LoadRamOfNothingChangesNothing :
    0 < stateA.cfg.ramSize ∧ stateA.cfg.battery = true ∧ stateA.host.loadSource = .absent ∧
    { stateA with host := loading (.ioError storageError) }.host.loadSource = .ioError storageError := by decide

theorem witness_LoadOfASaveRestoresTheRam :
    ∃ t₁ s₂ : State, stateA.Inv ∧ stateA.persist = true ∧ stateA.host.saveOutcome = .ok ∧
      exec .saveRam stateA = .next t₁ ∧ s₂.persist = true ∧
      s₂.host = { saveOutcome := .ok, loadSource := .bytes t₁.sink } :=
  ⟨_, { stateA1 with host := loading (.bytes stateA.ramImage) }, stateA_inv, by decide, by decide,
    exec_saveRam_ok (by decide) (by decide), by decide, rfl⟩

theorem witness_PersistenceAndBusStateAreIndependent :
    (∃ t, exec .saveRam stateA = .next t) ∧ (∃ t, exec .loadRam stateA = .next t) ∧
    (Instr.wrRam 0xA000 0x5A ≠ .saveRam ∧ ∃ t, exec (.wrRam 0xA000 0x5A) stateA = .next t) :=
  ⟨⟨_, exec_saveRam_ok (by decide) (by decide)⟩, ⟨_, exec_loadRam_absent (by decide) (by decide)⟩, by decide,
    ⟨_, exec_wrRam _ _ _⟩⟩

theorem witness_ErrorsWriteNothing :
    (∃ t, exec .saveRam { stateA with host := { saveOutcome := .ioError storageError, loadSource := .absent } } =
      .next t ∧ t.result = .err (.storageIo storageError)) ∧
    (∃ t, exec .loadRam { stateA with host := loading (.bytes []) } = .next t ∧
      t.result = .err (.malformedSave 0)) :=
  ⟨⟨_, exec_saveRam_ioError (by decide) rfl, rfl⟩, ⟨_, exec_loadRam_malformed (by decide) rfl (by decide), rfl⟩⟩

theorem witness_StepKeepsInvariant :
    (stateA.issuing 0x1A0005A stateA.host).Inv ∧ ∃ t, step (stateA.issuing 0x1A0005A stateA.host) = .next t :=
  ⟨by decide, ⟨_, rfl⟩⟩

theorem witness_EveryRunKeepsInvariantAndConfiguration :
    construct smallCartridge = .next (State.fresh (configOf smallCartridge)) ∧
    ∃ s, Reaches { State.fresh (configOf smallCartridge) with
      pending := [({ word := 0x1600001, host := loading .absent } : Request)] } 1 s :=
  ⟨witness_ConstructedControllerMeetsInvariant, ⟨_, reaches_succ.mpr ⟨_, rfl, reaches_zero.mpr rfl⟩⟩⟩

/-- Each fault case, and a state outside both. -/
theorem witness_OperationsFaultInExactlyTwoCases :
    stateA.cfg.romSize / 0x4000 ≤ { stateA with selectedROMBank := 4#5 }.selectedROMBank.toNat ∧
    (0 < stateA.cfg.ramSize ∧ stateA.ramEnabled = true) ∧
    ¬ stateA.cfg.romSize / 0x4000 ≤ { stateA with selectedROMBank := 3#5 }.selectedROMBank.toNat ∧
    ¬ (0 < stateClosed.cfg.ramSize ∧ stateClosed.ramEnabled = true) := by decide

theorem witness_ThirtyTwoBanksNeverFault : 0x80000 ≤ stateB.cfg.romSize := by decide

/-- Each register changed by one write. -/
theorem witness_RegistersChangeOnlyThroughTheirWindows :
    ((after stateA 0x1200001).map fun t => decide (t.selectedROMBank ≠ stateA.selectedROMBank)) = some true ∧
    ((after stateA 0x1400001).map fun t => decide (t.selectedRAMBank ≠ stateA.selectedRAMBank)) = some true ∧
    ((after stateA 0x1600001).map fun t => decide (t.mode ≠ stateA.mode)) = some true ∧
    ((after stateA1 0x1000000).map fun t => decide (t.ramEnabled ≠ stateA1.ramEnabled)) = some true := by decide

/-- The first and the last RAM byte, each changed by one bus write. -/
theorem witness_RamBytesChangeOnlyThroughTheirWriters :
    ((after stateA 0x1A0005A).map fun t => decide (t.ramRead 0 0 ≠ stateA.ramRead 0 0)) = some true ∧
    ((after { stateA1 with selectedRAMBank := 3 } 0x1BFFF5A).map fun t =>
      decide (t.ramRead 3 0x1FFF ≠ stateA.ramRead 3 0x1FFF)) = some true := by decide

/-- One step between the write and the read, which selects mode 1 and writes no RAM byte. -/
theorem witness_RamReadReturnsTheLatestWrite :
    ∃ t u : State, Instr.wf (.wrRam 0xA000 0x5A) = true ∧
      ({ stateA with pending := [{ word := 0x1600001, host := loading .absent }] } : State).ramAccessible = true ∧
      exec (.wrRam 0xA000 0x5A) { stateA with pending := [{ word := 0x1600001, host := loading .absent }] } = .next t ∧
      Reaches t 1 u ∧
      (∀ (j : Nat) (v : State), j < 1 → Reaches t j v → ¬ StepWritesRamByte v 0 (ramOffset 0xA000)) ∧
      u.ramAccessible = true ∧ u.ramBankSel = 0 := by
  refine ⟨_, _, by decide, by decide, exec_wrRam _ _ _, reaches_succ.mpr ⟨_, rfl, reaches_zero.mpr rfl⟩, ?_, by decide,
    by decide⟩
  intro j v hj hv
  obtain rfl : j = 0 := by omega
  rw [reaches_zero] at hv
  subst hv
  rintro ⟨i, u, hi, hw⟩
  obtain ⟨rfl, -⟩ := Prod.mk.inj (Option.some.inj ((State.takeOperation_cons rfl).symm.trans hi))
  rcases hw with ⟨a, d, h, -⟩ | ⟨h, -⟩
  · exact Instr.noConfusion h
  · exact Instr.noConfusion h

theorem witness_StepKeepsConfiguration :
    ∃ t, step (stateA.issuing 0x1200003 stateA.host) = .next t := ⟨_, rfl⟩

/-- A write to the byte beside it, and a write to the same offset of another bank, at the last byte of bank 0. -/
theorem witness_StepKeepsRamBytesItDoesNotWrite :
    (∃ t, step (stateA.issuing 0x1BFFE5A stateA.host) = .next t) ∧
    ¬ StepWritesRamByte (stateA.issuing 0x1BFFE5A stateA.host) 0 0x1FFF ∧
    (∃ t, step (State.issuing { stateA1 with selectedRAMBank := 1 } 0x1BFFF5A stateA.host) = .next t) ∧
    ¬ StepWritesRamByte (State.issuing { stateA1 with selectedRAMBank := 1 } 0x1BFFF5A stateA.host) 0 0x1FFF := by
  refine ⟨⟨_, rfl⟩, ?_, ⟨_, rfl⟩, ?_⟩ <;> rintro ⟨i, t, hi, ⟨a, d, rfl, -, hb, ho⟩ | ⟨rfl, -⟩⟩ <;> cases hi
  · exact absurd ho (by decide)
  · exact absurd hb (by decide)

theorem witness_WithoutRamItsStateCannotBeObserved : stateD.cfg.ramSize = 0 := by decide

end Sys2Proof.Tests
end

/-! ### Bus reads keep the state (R17) -/

namespace Sys2Proof.Machine

/-- The two outcomes of a bus read (R66): it hands back a byte and touches nothing else, or it faults. -/
theorem exec_read_cases {i : Instr} (hread : i.isRead = true) (s : State) :
    (∃ b, exec i s = .next { s with result := .byte b }) ∨ (∃ f, exec i s = .fault f) := by
  cases i with
  | rdRom0 a => exact .inl ⟨_, exec_rdRom0 a s⟩
  | rdRomx a =>
    rw [exec_rdRomx]
    cases s.romBankExists
    · exact .inr ⟨_, rfl⟩
    · exact .inl ⟨_, rfl⟩
  | rdOpen8 a => exact .inl ⟨_, exec_rdOpen8 a s⟩
  | rdRam a => exact .inl ⟨_, exec_rdRam a s⟩
  | rdC000 =>
    rw [exec_rdC000]
    cases s.ramAccessible
    · exact .inl ⟨_, rfl⟩
    · exact .inr ⟨_, rfl⟩
  | rdOpenC a => exact .inl ⟨_, exec_rdOpenC a s⟩
  | wrRamg | wrRomb | wrRamb | wrMode | wrRam | wrNop8 | wrNopC => cases hread
  | saveRam | loadRam => cases hread

/-- Settles O35: of the two outcomes of a bus read, only the one that completes reaches a next state. -/
theorem busReadsNeverChangeState : Obligations.BusReadsNeverChangeState := by
  intro i s t hread hnext
  obtain ⟨b, hbyte⟩ | ⟨f, hfault⟩ := exec_read_cases hread s
  · rw [hbyte] at hnext
    cases hnext
    exact ⟨b, rfl⟩
  · rw [hfault] at hnext
    cases hnext

end Sys2Proof.Machine

/-! ### The ROM and the RAM mapping are independent (R31) -/

namespace Sys2Proof.Machine

theorem State.romByte_congr {s s' : State} (hcfg : s.cfg = s'.cfg) (o : Nat) : s.romByte o = s'.romByte o := by
  rw [State.romByte, State.romByte, hcfg]

theorem State.romBankExists_congr {s s' : State} (hcfg : s.cfg = s'.cfg)
    (hsel : s.selectedROMBank = s'.selectedROMBank) : s.romBankExists = s'.romBankExists := by
  rw [State.romBankExists, State.romBankExists, hcfg, hsel]

@[simp] theorem State.setSelectedROMBank_ramRead (s : State) (k : BitVec 5) (b off : Nat) :
    (s.setSelectedROMBank k).ramRead b off = s.ramRead b off := rfl

/-- A read of the fixed bank tells its caller what the ROM image holds, and reads no register. -/
theorem observe_rdRom0_congr {s s' : State} (a : Addr) (hcfg : s.cfg = s'.cfg) :
    observe (exec (.rdRom0 a) s) = observe (exec (.rdRom0 a) s') := by
  rw [exec_rdRom0, exec_rdRom0]
  simp only [observe, State.romByte_congr hcfg]

/-- A read of the switchable bank: its byte, and whether it faults, rest on the configuration and the ROM selector. -/
theorem observe_rdRomx_congr {s s' : State} (a : Addr) (hcfg : s.cfg = s'.cfg)
    (hsel : s.selectedROMBank = s'.selectedROMBank) :
    observe (exec (.rdRomx a) s) = observe (exec (.rdRomx a) s') := by
  rw [exec_rdRomx, exec_rdRomx, State.romBankExists_congr hcfg hsel]
  cases s'.romBankExists
  case false => simp only [Bool.false_eq_true, if_false, observe, hcfg, hsel]
  case true => simp only [if_true, observe, State.romByte_congr hcfg, hsel]

theorem observe_rdRam_setSelectedROMBank (s : State) (k : BitVec 5) (a : Addr) :
    observe (exec (.rdRam a) (s.setSelectedROMBank k)) = observe (exec (.rdRam a) s) := by
  rw [exec_rdRam, exec_rdRam, State.setSelectedROMBank_ramAccessible, State.setSelectedROMBank_ramBankSel,
    State.setSelectedROMBank_ramRead]
  rfl

/-- A write to the RAM window commutes with a change of the ROM selector. -/
theorem exec_wrRam_setSelectedROMBank {s t : State} (k : BitVec 5) {a : Addr} {d : Byte}
    (h : exec (.wrRam a d) s = .next t) :
    exec (.wrRam a d) (s.setSelectedROMBank k) = .next (t.setSelectedROMBank k) := by
  rw [exec_wrRam] at h
  cases h
  rw [exec_wrRam, State.setSelectedROMBank_ramAccessible, State.setSelectedROMBank_ramBankSel,
    State.setSelectedROMBank_ramBanks]
  rfl

/-- Settles O38: ROM reads rest on the configuration and the ROM selector; a RAM read does not see a change of
that selector, and a RAM write commutes with it. -/
theorem romAndRamMappingsAreIndependent : Obligations.RomAndRamMappingsAreIndependent := by
  refine ⟨fun s s' a hcfg hsel => ⟨observe_rdRom0_congr a hcfg, observe_rdRomx_congr a hcfg hsel⟩,
    fun s k a d => ⟨observe_rdRam_setSelectedROMBank s k a, ?_⟩⟩
  have hwrite := exec_wrRam a d s
  exact ⟨_, _, exec_wrRam_setSelectedROMBank k hwrite, hwrite, State.setSelectedROMBank_ramBanks _ k⟩

end Sys2Proof.Machine

/-! ### Bus writes: the register windows and the windows nothing answers (R59 to R62, R64, R65) -/

namespace Sys2Proof.Machine

theorem State.gateWritable_iff_size (s : State) :
    s.gateWritable = true ↔ 0 < s.cfg.ramSize ∧ s.mode = 1#1 := by
  rw [State.gateWritable_iff, ramPresent_iff]

/-- Settles O18: the gate takes the decoded nibble exactly when it is writable. -/
theorem wrRamgWritesTheGateOnlyInMode1WithRam : Obligations.WrRamgWritesTheGateOnlyInMode1WithRam := by
  intro a d s
  refine ⟨_, exec_wrRamg a d s, fun hwritable => ?_, fun hlocked => ?_, rfl⟩
  · rw [← State.gateWritable_iff_size] at hwritable
    rw [← gateEnable_iff, if_pos hwritable]
  · rw [← State.gateWritable_iff_size] at hlocked
    exact if_neg hlocked

/-- Settles O19: the selector stored is `romSelect`, the byte modulo 32. -/
theorem wrRombStoresTheLowFiveBits : Obligations.WrRombStoresTheLowFiveBits :=
  fun a d s => ⟨_, exec_wrRomb a d s, romSelect_toNat d, rfl⟩

/-- Settles O20: the selector stored is `ramSelect`, the byte modulo 4. -/
theorem wrRambStoresTheLowTwoBits : Obligations.WrRambStoresTheLowTwoBits :=
  fun a d s => ⟨_, exec_wrRamb a d s, ramSelect_toNat d, rfl⟩

/-- Settles O21: the mode stored is `modeSelect`, the byte modulo 2. -/
theorem wrModeStoresBitZero : Obligations.WrModeStoresBitZero :=
  fun a d s => ⟨_, exec_wrMode a d s, modeSelect_toNat d, rfl⟩

/-- Settles O23, by the laws of the two operations. -/
theorem nopWritesChangeNothing : Obligations.NopWritesChangeNothing :=
  fun a d s => ⟨exec_wrNop8 a d s, exec_wrNopC a d s⟩

end Sys2Proof.Machine

/-! ### Bus writes: the RAM window, and all seven at once (R58, R63) -/

namespace Sys2Proof.Machine

theorem ramOffset_lt_of_wf {a : Addr} {d : Byte} (h : Instr.wf (.wrRam a d) = true) : ramOffset a < 0x2000 := by
  obtain ⟨-, hhi⟩ := (inWindow_iff 0xA000 0xBFFF a).mp h
  unfold ramOffset
  omega

theorem exec_wrRam_open {s : State} (hopen : s.ramAccessible = true) (a : Addr) (d : Byte) :
    exec (.wrRam a d) s = .next { s.ramWrite s.ramBankSel (ramOffset a) d with result := .nothing } := by
  rw [exec_wrRam, if_pos hopen]
  rfl

theorem exec_wrRam_closed {s : State} (hclosed : ¬ s.ramAccessible = true) (a : Addr) (d : Byte) :
    exec (.wrRam a d) s = .next { s with result := .nothing } := by
  rw [exec_wrRam, if_neg hclosed]

/-- A write to the RAM window touches one place of the RAM, at any address and whether the RAM is open or closed. -/
theorem exec_wrRam_read_of_ne {s t : State} {a : Addr} {d : Byte} (h : exec (.wrRam a d) s = .next t) {k : Nat}
    (hk : k ≠ ramIndex s.ramBankSel (ramOffset a)) : Memory.read t.ramBanks k = Memory.read s.ramBanks k := by
  by_cases hopen : s.ramAccessible = true
  · rw [exec_wrRam_open hopen] at h
    cases h
    exact (Memory.read_write ..).trans (if_neg hk.symm)
  · rw [exec_wrRam_closed hopen] at h
    cases h
    rfl

/-- Settles O22: open, the write is `ramWrite` to the multiplexer's bank, whose law says what each byte reads
as afterwards; closed, it changes nothing. -/
theorem wrRamStoresOneByteOfTheSelectedBank : Obligations.WrRamStoresOneByteOfTheSelectedBank := by
  intro a d s hwf
  rw [← State.ramAccessible_iff_size]
  by_cases hopen : s.ramAccessible = true
  · have hexec := exec_wrRam_open hopen a d
    exact ⟨_, hexec, fun _ b off _ hoff => State.ramRead_ramWrite s d (ramOffset_lt_of_wf hwf) hoff,
      fun hclosed => absurd hopen hclosed, fun k hk => exec_wrRam_read_of_ne hexec hk, rfl⟩
  · exact ⟨_, exec_wrRam_closed hopen a d, fun h => absurd h hopen, fun _ => rfl, fun _ _ => rfl, rfl⟩

/-- Settles O24: each of the seven laws shows its one target; only the RAM window needs a word on which byte. -/
theorem busWriteChangesAtMostOneTarget : Obligations.BusWriteChangesAtMostOneTarget := by
  intro i s hwrite
  cases i with
  | wrRamg a d => exact ⟨_, exec_wrRamg a d s, rfl, .inl ⟨a, d, rfl, rfl⟩⟩
  | wrRomb a d => exact ⟨_, exec_wrRomb a d s, rfl, .inr (.inl ⟨a, d, rfl, rfl⟩)⟩
  | wrRamb a d => exact ⟨_, exec_wrRamb a d s, rfl, .inr (.inr (.inl ⟨a, d, rfl, rfl⟩))⟩
  | wrMode a d => exact ⟨_, exec_wrMode a d s, rfl, .inr (.inr (.inr (.inl ⟨a, d, rfl, rfl⟩)))⟩
  | wrRam a d =>
    have hexec := exec_wrRam a d s
    exact ⟨_, hexec, rfl, .inr (.inr (.inr (.inr (.inl
      ⟨a, d, rfl, rfl, fun k hk => exec_wrRam_read_of_ne hexec hk⟩))))⟩
  | wrNop8 a d => exact ⟨_, exec_wrNop8 a d s, rfl, .inr (.inr (.inr (.inr (.inr ⟨⟨a, d, .inl rfl⟩, rfl⟩))))⟩
  | wrNopC a d => exact ⟨_, exec_wrNopC a d s, rfl, .inr (.inr (.inr (.inr (.inr ⟨⟨a, d, .inr rfl⟩, rfl⟩))))⟩
  | rdRom0 | rdRomx | rdOpen8 | rdRam | rdC000 | rdOpenC => cases hwrite
  | saveRam | loadRam => cases hwrite

end Sys2Proof.Machine

/-! ### Bus reads: the fixed ROM bank, the windows nothing answers and the RAM window (R67, R69, R70, R72) -/

namespace Sys2Proof.Machine

/-- A state whose ROM image was loaded from a list of bytes reads that list (R10). -/
theorem State.romByte_of_ofBytes {s : State} {rom : List Byte} (hrom : s.cfg.rom = RomImage.ofBytes rom) (o : Nat) :
    s.romByte o = rom.getD o 0#8 := by
  rw [State.romByte, hrom, RomImage.read_ofBytes]

/-- Settles O28: the read hands back `romByte` at its own address, whatever the registers hold. -/
theorem rdRom0ReturnsTheFixedBankByte : Obligations.RdRom0ReturnsTheFixedBankByte := by
  intro a s rom _ hrom
  rw [exec_rdRom0, State.romByte_of_ofBytes hrom]

/-- Settles O31, by the laws of the two operations. -/
theorem openBusReadsReturnZero : Obligations.OpenBusReadsReturnZero :=
  fun a s => ⟨exec_rdOpen8 a s, exec_rdOpenC a s⟩

theorem exec_rdRam_open {s : State} (hopen : s.ramAccessible = true) (a : Addr) :
    exec (.rdRam a) s = .next { s with result := .byte (s.ramRead s.ramBankSel (ramOffset a)) } := by
  rw [exec_rdRam, if_pos hopen]

theorem exec_rdRam_closed {s : State} (hclosed : ¬ s.ramAccessible = true) (a : Addr) :
    exec (.rdRam a) s = .next { s with result := .byte 0x00#8 } := by
  rw [exec_rdRam, if_neg hclosed]

/-- Settles O32: open, the byte comes from the multiplexer's bank, which `ramBankSel` names by the mode; closed,
the RAM is not consulted. -/
theorem rdRamReturnsTheGatedByte : Obligations.RdRamReturnsTheGatedByte := by
  intro a s _
  rw [← State.ramAccessible_iff_size]
  exact ⟨fun hopen => exec_rdRam_open hopen a, fun hclosed => exec_rdRam_closed hclosed a⟩

end Sys2Proof.Machine

/-! ### Persistence: the layout of the blob (R74) -/

namespace Sys2Proof.Machine

/-- Settles O39: `ramIndex b off` is the place named, and the laws of `ramImage` give its length and the byte
at each such place. -/
theorem blobHoldsTheBanksInOrder : Obligations.BlobHoldsTheBanksInOrder :=
  fun s => ⟨s.ramImage_length, fun _ _ hb hoff => s.ramImage_getElem? hb hoff⟩

end Sys2Proof.Machine

/-! ### Errors: which operations answer one, and what they leave unchanged (R86, R90) -/

namespace Sys2Proof

/-- The four kinds of R45: every operation is a bus read, a bus write or one of the two host operations. -/
theorem Instr.read_or_write_or_host (i : Instr) :
    i.isRead = true ∨ i.isWrite = true ∨ i = .saveRam ∨ i = .loadRam := by
  cases i with
  | rdRom0 | rdRomx | rdOpen8 | rdRam | rdC000 | rdOpenC => exact .inl rfl
  | wrRamg | wrRomb | wrRamb | wrMode | wrRam | wrNop8 | wrNopC => exact .inr (.inl rfl)
  | saveRam => exact .inr (.inr (.inl rfl))
  | loadRam => exact .inr (.inr (.inr rfl))

end Sys2Proof

namespace Sys2Proof.Machine

/-- Settles O44: RAM and a battery make `Persist` hold, so `LOAD_RAM` takes its wrong-length branch. -/
theorem loadRamRejectsAWrongLength : Obligations.LoadRamRejectsAWrongLength :=
  fun s _ hram hbattery hsource hlength =>
    exec_loadRam_malformed (s.persist_iff_size.mpr ⟨hram, hbattery⟩) hsource hlength

theorem exec_write_result {i : Instr} {s t : State} (hwrite : i.isWrite = true) (h : exec i s = .next t) :
    t.result = .nothing := by
  obtain ⟨t', ht', hresult, -⟩ := busWriteChangesAtMostOneTarget i s hwrite
  rw [ht'] at h
  cases h
  exact hresult

/-- A bus read that completes answers a byte and a bus write answers nothing (R58, R66), so an error comes from
the host's side only. -/
theorem host_of_exec_err {i : Instr} {s t : State} {e : OpError} (h : exec i s = .next t)
    (herr : t.result = .err e) : i = .saveRam ∨ i = .loadRam := by
  obtain hread | hwrite | hhost := i.read_or_write_or_host
  · obtain ⟨b, rfl⟩ := busReadsNeverChangeState i s t hread h
    cases herr
  · rw [exec_write_result hwrite h] at herr
    cases herr
  · exact hhost

/-- Of SaveRAM's three branches only the failed write answers an error (R91); the sink is the host's. -/
theorem exec_saveRam_frame_of_err {s t : State} {e : OpError} (h : exec .saveRam s = .next t)
    (herr : t.result = .err e) : t = { s with sink := t.sink, freeDraws := t.freeDraws, result := .err e } := by
  obtain ⟨-, hexec⟩ | ⟨-, -, hexec⟩ | ⟨-, _, -, hexec⟩ := exec_saveRam s <;> rw [hexec] at h <;> cases h
  · cases herr
  · cases herr
  · cases herr; rfl

/-- Of LoadRAM's five branches the failed read and the wrong length answer an error (R90, R91), and the one
that replaces the RAM does not. -/
theorem exec_loadRam_frame_of_err {s t : State} {e : OpError} (h : exec .loadRam s = .next t)
    (herr : t.result = .err e) : t = { s with result := .err e } := by
  obtain ⟨-, hexec⟩ | ⟨-, -, hexec⟩ | ⟨-, _, -, hexec⟩ | ⟨-, _, -, -, hexec⟩ | ⟨-, _, -, -, hexec⟩ := exec_loadRam s <;>
    rw [hexec] at h <;> cases h
  · cases herr
  · cases herr
  · cases herr; rfl
  · cases herr; rfl
  · cases herr

/-- Settles O48: an error comes from SaveRAM or LoadRAM, and the frame of each says what the error left alone. -/
theorem errorsWriteNothing : Obligations.ErrorsWriteNothing := by
  intro i s t e h herr
  have hhost := host_of_exec_err h herr
  refine ⟨hhost, ?_⟩
  obtain rfl | rfl := hhost
  · exact exec_saveRam_frame_of_err h herr
  · rw [exec_loadRam_frame_of_err h herr]

end Sys2Proof.Machine

/-! ### Encoding and decoding: the round trips (R44 to R49) -/

namespace Sys2Proof

/-- The window that `wf` gives a row is the address range in which the decoder chooses that row. -/
theorem decode_encode {i : Instr} (hwf : i.wf = true) : decode (encode i) = i := by
  cases i with
  | wrRamg a d | wrRomb a d | wrRamb a d | wrMode a d | wrRam a d | wrNop8 a d | wrNopC a d =>
    simp only [Instr.wf, inWindow_iff] at hwf
    rw [encode, decode_write, decodeWrite_eq]
    grind
  | rdRom0 a | rdRomx a | rdOpen8 a | rdRam a | rdOpenC a =>
    simp only [Instr.wf, inWindow_iff] at hwf
    rw [encode, decode_read, decodeRead_eq]
    grind
  | rdC000 => decide
  | saveRam => decide
  | loadRam => decide

/-- Settles O6. -/
theorem decodeOfEncodeIsTheOperation : Obligations.DecodeOfEncodeIsTheOperation := fun _ hwf => decode_encode hwf

/-- The word that encodes the operation of a word: each kind keeps the fields it reads. -/
theorem encode_decode (w : Word) :
    encode (decode w) =
      Word.pack w.kind (if w.kind = 0b00#2 ∨ w.kind = 0b01#2 then w.addr else 0#16)
        (if w.kind = 0b01#2 then w.data else 0#8) := by
  obtain ⟨hkind, hdecode⟩ | ⟨hkind, hdecode⟩ | ⟨hkind, hdecode⟩ | ⟨hkind, hdecode⟩ := decode_cases w <;>
    rw [hdecode, hkind]
  · exact encode_decodeRead _
  · exact encode_decodeWrite _ _
  · rfl
  · rfl

/-- Settles O7. -/
theorem encodeOfDecodeClearsOnlyIgnoredFields : Obligations.EncodeOfDecodeClearsOnlyIgnoredFields :=
  fun w => ⟨wf_decode w, encode_decode w⟩

/-- Settles O8: none of the three kinds reads the fields in question. -/
theorem ignoredFieldsDoNotMatter : Obligations.IgnoredFieldsDoNotMatter := by
  intro a a' d d'
  refine ⟨?_, ?_, ?_⟩
  · rw [decode_read, decode_read]
  · rw [decode_pack, decode_pack]; rfl
  · rw [decode_pack, decode_pack]; rfl

/-- Settles O9: `decodeWrite_eq`, with each bound named by the last address of the window. -/
theorem writesDecodeByAddressRange : Obligations.WritesDecodeByAddressRange := by
  intro a d
  rw [decode_write, decodeWrite_eq]
  simp only [← Nat.lt_add_one_iff, Nat.reduceAdd]

/-- Settles O10: `decodeRead_eq`, with each bound named by the last address of the window. -/
theorem readsDecodeByAddressRange : Obligations.ReadsDecodeByAddressRange := by
  intro a d
  rw [decode_read, decodeRead_eq]
  simp only [← Nat.lt_add_one_iff, Nat.reduceAdd]

/-- Settles O13, by running the decoder on the seven words. -/
theorem sampleWordsDecodeAsTheVectorsSay : Obligations.SampleWordsDecodeAsTheVectorsSay := by
  unfold Obligations.SampleWordsDecodeAsTheVectorsSay
  decide

end Sys2Proof

/-! ### The opcode map (30_encoding.md section 6) -/

namespace Sys2Proof

/-- The five highest bits of a word: its kind and the three highest bits of its address. Every row but `RD_C000`
masks bits among these only. -/
def Word.top (w : Word) : BitVec 5 := w.extractLsb' 21 5

theorem Word.toNat_top (w : Word) : w.top.toNat = w.toNat / 2 ^ 21 := by
  have := w.isLt
  rw [Word.top, BitVec.extractLsb'_toNat, Nat.shiftRight_eq_div_pow]
  omega

/-- The word is a read of 0xC000. -/
def Word.readsC000 (w : Word) : Bool := decide (w.toNat / 2 ^ 8 = 0xC000)

theorem Word.top_of_readsC000 {w : Word} (h : w.readsC000 = true) : w.top = 6#5 := by
  have := of_decide_eq_true h
  rw [← BitVec.toNat_inj, Word.toNat_top, BitVec.toNat_ofNat]
  omega

theorem Word.fields_of_readsC000 {w : Word} (h : w.readsC000 = true) : w.kind = 0b00#2 ∧ w.addr = 0xC000#16 := by
  have := of_decide_eq_true h
  obtain ⟨hkind, haddr, -⟩ := Word.toNat_fields w
  rw [← BitVec.toNat_inj, ← BitVec.toNat_inj, hkind, haddr, BitVec.toNat_ofNat, BitVec.toNat_ofNat]
  omega

/-- Whether a row matches the words of five highest bits `t`; `c` says whether the word is a read of 0xC000. -/
def OpcodeRow.matchesTop (r : OpcodeRow) (t : BitVec 5) (c : Bool) : Bool :=
  if r.mask = 0x3FFFF00 then c else (t &&& r.mask.top) == r.value.top

theorem Word.eq_iff_top_low (w v : Word) : w = v ↔ w.top = v.top ∧ w.extractLsb' 0 21 = v.extractLsb' 0 21 := by
  simp only [← BitVec.toNat_inj, Word.toNat_top, BitVec.extractLsb'_toNat, Nat.shiftRight_zero]
  omega

theorem OpcodeRow.matches_of_low_zero {r : OpcodeRow} (w : Word) (hmask : r.mask.extractLsb' 0 21 = 0#21)
    (hvalue : r.value.extractLsb' 0 21 = 0#21) : r.matches w = ((w.top &&& r.mask.top) == r.value.top) := by
  rw [Bool.eq_iff_iff, OpcodeRow.matches, beq_iff_eq, beq_iff_eq, Word.eq_iff_top_low, Word.top,
    BitVec.extractLsb'_and, BitVec.extractLsb'_and, hmask, hvalue, BitVec.and_zero, eq_self, and_true]
  rfl

/-- Every row of the map tests the five highest bits, except that `RD_C000` tests the whole address. -/
theorem opcodeMap_shape : ∀ r ∈ opcodeMap,
    (r.mask = 0x3FFFF00 ∧ r.value = 0x0C00000) ∨
    (r.mask ≠ 0x3FFFF00 ∧ r.mask.extractLsb' 0 21 = 0#21 ∧ r.value.extractLsb' 0 21 = 0#21) := by
  decide

theorem OpcodeRow.matches_eq_matchesTop {r : OpcodeRow} (hr : r ∈ opcodeMap) (w : Word) :
    r.matches w = r.matchesTop w.top w.readsC000 := by
  obtain ⟨hmask, hvalue⟩ | ⟨hmask, hmaskLow, hvalueLow⟩ := opcodeMap_shape r hr
  · obtain ⟨m, v, k⟩ := r
    obtain rfl : k = 0x3FFFF00 := hmask
    obtain rfl : v = 0x0C00000 := hvalue
    exact OpcodeRow.matches_mask8 m _ w 0xC000 (by decide)
  · rw [OpcodeRow.matchesTop, if_neg hmask, OpcodeRow.matches_of_low_zero w hmaskLow hvalueLow]

theorem opcodeRow_eq (w : Word) : opcodeRow w = opcodeMap.find? (·.matchesTop w.top w.readsC000) :=
  List.find?_congr fun _ hr => OpcodeRow.matches_eq_matchesTop hr w

/-- The 33 cases of the five highest bits and 0xC000: the first row that matches has the decoder's mnemonic. -/
theorem find?_matchesTop (t : BitVec 5) (c : Bool) (hc : c = true → t = 6#5) :
    (opcodeMap.find? (·.matchesTop t c)).map (·.mnemonic) = some (mnemonicOfTop t.toNat c) := by
  revert t c
  decide

/-- The same cases row by row: beside the decoder's own row, only `RD_OPEN_C` matches, and only at 0xC000. -/
theorem mnemonic_of_matchesTop (t : BitVec 5) (c : Bool) (hc : c = true → t = 6#5) :
    ∀ r ∈ opcodeMap, r.matchesTop t c = true →
      r.mnemonic = mnemonicOfTop t.toNat c ∨ (c = true ∧ r.mnemonic = "RD_OPEN_C") := by
  revert t c
  decide

theorem opcodeMap_mnemonic_inj {r r' : OpcodeRow} (hr : r ∈ opcodeMap) (hr' : r' ∈ opcodeMap)
    (h : r.mnemonic = r'.mnemonic) : r = r' :=
  List.inj_on_of_nodup_map (f := OpcodeRow.mnemonic) (by decide) hr hr' h

theorem mnemonicOfTop_of_readsC000 {w : Word} (h : w.readsC000 = true) :
    mnemonicOfTop w.top.toNat w.readsC000 = "RD_C000" := by
  rw [h, Word.top_of_readsC000 h]
  rfl

/-- Settles O11: the map and the decoder both rest on the five highest bits and on whether 0xC000 is read. -/
theorem decoderAgreesWithTheOpcodeMap : Obligations.DecoderAgreesWithTheOpcodeMap := by
  intro w
  rw [opcodeRow_eq, find?_matchesTop _ _ Word.top_of_readsC000, decode_mnemonic, ← Word.toNat_top]
  rfl

/-- Settles O12: two rows with the decoder's mnemonic are one row; any other pair has `RD_OPEN_C` at 0xC000, where
the decoder's mnemonic is `RD_C000`. -/
theorem onlyTheC000RowsOverlap : Obligations.OnlyTheC000RowsOverlap := by
  intro w r r' hr hr' hm hm'
  rw [OpcodeRow.matches_eq_matchesTop hr] at hm
  rw [OpcodeRow.matches_eq_matchesTop hr'] at hm'
  have hrow := mnemonic_of_matchesTop _ _ Word.top_of_readsC000 r hr hm
  have hrow' := mnemonic_of_matchesTop _ _ Word.top_of_readsC000 r' hr' hm'
  obtain h | ⟨hc, h⟩ := hrow <;> obtain h' | ⟨hc', h'⟩ := hrow'
  · exact .inl (opcodeMap_mnemonic_inj hr hr' (h.trans h'.symm))
  · obtain ⟨hkind, haddr⟩ := Word.fields_of_readsC000 hc'
    exact .inr ⟨hkind, haddr, .inl ⟨h.trans (mnemonicOfTop_of_readsC000 hc'), h'⟩⟩
  · obtain ⟨hkind, haddr⟩ := Word.fields_of_readsC000 hc
    exact .inr ⟨hkind, haddr, .inr ⟨h, h'.trans (mnemonicOfTop_of_readsC000 hc)⟩⟩
  · exact .inl (opcodeMap_mnemonic_inj hr hr' (h.trans h'.symm))

end Sys2Proof

/-! ### What a step can do to the configuration and to the invariant (R9, R18 to R20) -/

namespace Sys2Proof.Machine

theorem exec_keeps_cfg {i : Instr} {s t : State} (h : exec i s = .next t) : t.cfg = s.cfg := by
  obtain ⟨_, _, -, rfl⟩ | ⟨_, _, -, rfl⟩ | ⟨_, _, -, rfl⟩ | ⟨_, _, -, rfl⟩ | ⟨_, _, -, -, rfl⟩ |
    ⟨-, -, _, _, _, rfl⟩ | ⟨-, -, _, -, -, rfl⟩ | ⟨_, rfl⟩ := exec_next_cases h <;> rfl

/-- Settles O57: an idle step changes nothing, and no operation writes the configuration. -/
theorem stepKeepsConfiguration : Obligations.StepKeepsConfiguration := by
  intro s t h
  obtain ⟨-, ⟨-, rfl⟩ | ⟨r, rest, -, hexec⟩⟩ := step_next_cases h
  · rfl
  · exact exec_keeps_cfg (s := { s with pending := rest, host := r.host }) hexec

/-- Of the three writers of what the invariant speaks of, the gate's and the RAM's need RAM to be present, and the
RAM's two writers keep the canonical form. -/
theorem exec_keeps_inv {i : Instr} {s t : State} (hwf : i.wf = true) (hinv : s.Inv) (h : exec i s = .next t) :
    t.Inv := by
  obtain ⟨hvalid, hcanonical, hbelow, hnoRam⟩ := hinv
  obtain ⟨a, d, rfl, rfl⟩ | ⟨_, _, -, rfl⟩ | ⟨_, _, -, rfl⟩ | ⟨_, _, -, rfl⟩ | ⟨a, d, rfl, hopen, rfl⟩ |
    ⟨-, -, _, _, _, rfl⟩ | ⟨-, hpersist, bs, -, hlength, rfl⟩ | ⟨_, rfl⟩ := exec_next_cases h
  case inl =>
    refine ⟨hvalid, hcanonical, hbelow, fun (habsent : s.cfg.ramPresent = false) => ?_⟩
    have hlocked : s.gateWritable = false := by simp [State.gateWritable, habsent]
    simpa only [hlocked, Bool.false_eq_true, if_false] using hnoRam habsent
  case inr.inr.inr.inr.inl =>
    have hplace := ramIndex_lt s.ramBankSel_lt (ramOffset_lt_of_wf hwf)
    have hpresent := (s.ramAccessible_iff.mp hopen).1
    exact ⟨hvalid, Memory.wf_write hcanonical _ d, Memory.below_write hbelow hplace d,
      fun habsent => absurd hpresent (Bool.eq_false_iff.mp habsent)⟩
  case inr.inr.inr.inr.inr.inr.inl =>
    have hpresent := (s.persist_iff.mp hpersist).1
    exact ⟨hvalid, Memory.wf_ofBytes bs, hlength ▸ Memory.below_ofBytes bs,
      fun habsent => absurd hpresent (Bool.eq_false_iff.mp habsent)⟩
  all_goals exact ⟨hvalid, hcanonical, hbelow, hnoRam⟩

/-- Settles O49: the operation a step runs came from the decoder, so it is well-formed. -/
theorem stepKeepsInvariant : Obligations.StepKeepsInvariant := by
  intro s t hinv h
  obtain ⟨-, ⟨-, rfl⟩ | ⟨r, rest, -, hexec⟩⟩ := step_next_cases h
  · exact hinv
  · exact exec_keeps_inv (s := { s with pending := rest, host := r.host }) (wf_decode r.word) hinv hexec

end Sys2Proof.Machine

/-! ### The two writers of a RAM byte (R19, R39) -/

namespace Sys2Proof

/-- A word that decodes to a row of `lo` to `hi` with an address and a data byte is a write in that window. -/
theorem window_of_write {w : Word} {i : Instr} (a : Addr) (d : Byte) (lo hi : Nat) (h : decode w = i)
    (hrow : i ∈ [.wrRamg a d, .wrRomb a d, .wrRamb a d, .wrMode a d, .wrRam a d, .wrNop8 a d, .wrNopC a d])
    (hwindow : i.wf = inWindow lo hi a) :
    w.kind = 0b01#2 ∧ w.addr = a ∧ lo ≤ w.addr.toNat ∧ w.addr.toNat ≤ hi ∧ w.data = d := by
  obtain ⟨hkind, haddr, hdata⟩ := fields_of_write h hrow
  have hwf := wf_decode w
  rw [h, hwindow, inWindow_iff, ← haddr] at hwf
  exact ⟨hkind, haddr, hwf.1, hwf.2, hdata⟩

end Sys2Proof

namespace Sys2Proof.Machine

/-- If an operation changes a RAM byte it is one of the two writers, and the byte is the one it brought. -/
theorem exec_ramRead_ne {i : Instr} {s t : State} {b off : Nat} (hwf : i.wf = true) (hoff : off < 0x2000)
    (h : exec i s = .next t) (hne : t.ramRead b off ≠ s.ramRead b off) :
    (∃ a d, i = .wrRam a d ∧ s.ramAccessible = true ∧ s.ramBankSel = b ∧ ramOffset a = off ∧ t.ramRead b off = d) ∨
    (i = .loadRam ∧ s.persist = true ∧ ∃ bs, s.host.loadSource = .bytes bs ∧ bs.length = 32768 ∧
      t.ramRead b off = bs.getD (ramIndex b off) 0#8) := by
  obtain ⟨_, _, -, rfl⟩ | ⟨_, _, -, rfl⟩ | ⟨_, _, -, rfl⟩ | ⟨_, _, -, rfl⟩ | ⟨a, d, rfl, hopen, rfl⟩ |
    ⟨-, -, _, _, _, rfl⟩ | ⟨rfl, hpersist, bs, hsource, hlength, rfl⟩ | ⟨_, rfl⟩ := exec_next_cases h
  case inr.inr.inr.inr.inl =>
    have hread := s.ramRead_ramWrite (b := s.ramBankSel) (b' := b) d (ramOffset_lt_of_wf hwf) hoff
    by_cases hplace : b = s.ramBankSel ∧ off = ramOffset a
    · exact .inl ⟨a, d, rfl, hopen, hplace.1.symm, hplace.2.symm, hread.trans (if_pos hplace)⟩
    · exact absurd (hread.trans (if_neg hplace)) hne
  case inr.inr.inr.inr.inr.inr.inl =>
    exact .inr ⟨rfl, hpersist, bs, hsource, hlength, s.ramRead_loadRamImage bs b off⟩
  all_goals exact absurd rfl hne

/-- A step that changes any part of the state was not idle. -/
theorem exec_of_step_ne {α : Type} (part : State → α) {s t : State} (h : step s = .next t) (hne : part t ≠ part s) :
    ∃ r rest, s.pending = r :: rest ∧ exec (decode r.word) { s with pending := rest, host := r.host } = .next t := by
  obtain ⟨-, ⟨-, rfl⟩ | hran⟩ := step_next_cases h
  · exact absurd rfl hne
  · exact hran

/-- Settles O58: were the byte changed, the operation taken would be one of its writers. -/
theorem stepKeepsRamBytesItDoesNotWrite : Obligations.StepKeepsRamBytesItDoesNotWrite := by
  intro s t b off _ hoff h hnoWriter
  by_contra hne
  obtain ⟨r, rest, hpending, hexec⟩ := exec_of_step_ne (State.ramRead · b off) h hne
  refine hnoWriter ⟨_, _, State.takeOperation_cons hpending, ?_⟩
  obtain ⟨a, d, hwrite, hopen, hbank, hplace, -⟩ | ⟨hload, hpersist, bs, hsource, hlength, -⟩ :=
    exec_ramRead_ne (wf_decode r.word) hoff hexec hne
  · exact .inl ⟨a, d, hwrite, hopen, hbank, hplace⟩
  · exact .inr ⟨hload, hpersist, bs, hsource, hlength⟩

/-- Settles O54: the writer that changed the byte, with the word it was decoded from. -/
theorem ramBytesChangeOnlyThroughTheirWriters : Obligations.RamBytesChangeOnlyThroughTheirWriters := by
  intro s t b off _ hoff h hne
  obtain ⟨r, rest, hpending, hexec⟩ := exec_of_step_ne (State.ramRead · b off) h hne
  refine ⟨r, rest, hpending, ?_⟩
  obtain ⟨a, d, hwrite, hopen, hbank, hplace, hbyte⟩ | ⟨hload, hpersist, bs, hsource, hlength, hbyte⟩ :=
    exec_ramRead_ne (wf_decode r.word) hoff hexec hne
  · obtain ⟨hkind, rfl, hlo, -, rfl⟩ := window_of_write a d 0xA000 0xBFFF hwrite (by simp) rfl
    obtain ⟨hram, henabled⟩ := (State.ramAccessible_iff_size _).mp hopen
    refine .inl ⟨hkind, ?_, hram, henabled, hbank.symm, hbyte⟩
    unfold ramOffset at hplace
    omega
  · obtain ⟨hram, hbattery⟩ := (State.persist_iff_size _).mp hpersist
    exact .inr ⟨kind_of_loadRam hload, hram, hbattery, bs, hsource, hlength, hbyte⟩

/-- A run keeps a RAM byte that none of its steps writes. -/
theorem reaches_keeps_ramRead {b off : Nat} (hb : b < 4) (hoff : off < 0x2000) {k : Nat} {s u : State}
    (hrun : Reaches s k u) (hnoWriter : ∀ j v, j < k → Reaches s j v → ¬ StepWritesRamByte v b off) :
    u.ramRead b off = s.ramRead b off := by
  induction k generalizing s with
  | zero => rw [reaches_zero.mp hrun]
  | succ k ih =>
    obtain ⟨t, hstep, hrun⟩ := reaches_succ.mp hrun
    have hfirst := hnoWriter 0 s (Nat.succ_pos k) (reaches_zero.mpr rfl)
    have hrest : ∀ j v, j < k → Reaches t j v → ¬ StepWritesRamByte v b off := fun j v hj hv =>
      hnoWriter (j + 1) v (Nat.succ_lt_succ hj) (reaches_succ.mpr ⟨t, hstep, hv⟩)
    calc u.ramRead b off = t.ramRead b off := ih hrun hrest
      _ = s.ramRead b off := stepKeepsRamBytesItDoesNotWrite s t b off hb hoff hstep hfirst

/-- Settles O55: the write leaves the byte, the run keeps it and the read finds it. -/
theorem ramReadReturnsTheLatestWrite : Obligations.RamReadReturnsTheLatestWrite := by
  intro s t u a d k hwf hopen hwrite hrun hnoWriter hopen' hbank
  have hoff := ramOffset_lt_of_wf hwf
  rw [exec_wrRam_open hopen] at hwrite
  cases hwrite
  have hbyte : u.ramRead u.ramBankSel (ramOffset a) = d := by
    rw [hbank, reaches_keeps_ramRead s.ramBankSel_lt hoff hrun hnoWriter]
    exact (s.ramRead_ramWrite d hoff hoff).trans (if_pos ⟨rfl, rfl⟩)
  rw [exec_rdRam_open hopen', hbyte]

end Sys2Proof.Machine

/-! ### The window of each register (R12 to R15) -/

namespace Sys2Proof.Machine

theorem exec_selectedROMBank_ne {i : Instr} {s t : State} (h : exec i s = .next t)
    (hne : t.selectedROMBank ≠ s.selectedROMBank) : ∃ a d, i = .wrRomb a d ∧ t.selectedROMBank = romSelect d := by
  obtain ⟨_, _, -, rfl⟩ | ⟨a, d, rfl, rfl⟩ | ⟨_, _, -, rfl⟩ | ⟨_, _, -, rfl⟩ | ⟨_, _, -, -, rfl⟩ |
    ⟨-, -, _, _, _, rfl⟩ | ⟨-, -, _, -, -, rfl⟩ | ⟨_, rfl⟩ := exec_next_cases h
  case inr.inl => exact ⟨a, d, rfl, rfl⟩
  all_goals exact absurd rfl hne

theorem exec_selectedRAMBank_ne {i : Instr} {s t : State} (h : exec i s = .next t)
    (hne : t.selectedRAMBank ≠ s.selectedRAMBank) : ∃ a d, i = .wrRamb a d ∧ t.selectedRAMBank = ramSelect d := by
  obtain ⟨_, _, -, rfl⟩ | ⟨_, _, -, rfl⟩ | ⟨a, d, rfl, rfl⟩ | ⟨_, _, -, rfl⟩ | ⟨_, _, -, -, rfl⟩ |
    ⟨-, -, _, _, _, rfl⟩ | ⟨-, -, _, -, -, rfl⟩ | ⟨_, rfl⟩ := exec_next_cases h
  case inr.inr.inl => exact ⟨a, d, rfl, rfl⟩
  all_goals exact absurd rfl hne

theorem exec_mode_ne {i : Instr} {s t : State} (h : exec i s = .next t) (hne : t.mode ≠ s.mode) :
    ∃ a d, i = .wrMode a d ∧ t.mode = modeSelect d := by
  obtain ⟨_, _, -, rfl⟩ | ⟨_, _, -, rfl⟩ | ⟨_, _, -, rfl⟩ | ⟨a, d, rfl, rfl⟩ | ⟨_, _, -, -, rfl⟩ |
    ⟨-, -, _, _, _, rfl⟩ | ⟨-, -, _, -, -, rfl⟩ | ⟨_, rfl⟩ := exec_next_cases h
  case inr.inr.inr.inl => exact ⟨a, d, rfl, rfl⟩
  all_goals exact absurd rfl hne

theorem exec_ramEnabled_ne {i : Instr} {s t : State} (h : exec i s = .next t) (hne : t.ramEnabled ≠ s.ramEnabled) :
    ∃ a d, i = .wrRamg a d ∧ s.gateWritable = true ∧ t.ramEnabled = gateEnable d := by
  obtain ⟨a, d, rfl, rfl⟩ | ⟨_, _, -, rfl⟩ | ⟨_, _, -, rfl⟩ | ⟨_, _, -, rfl⟩ | ⟨_, _, -, -, rfl⟩ |
    ⟨-, -, _, _, _, rfl⟩ | ⟨-, -, _, -, -, rfl⟩ | ⟨_, rfl⟩ := exec_next_cases h
  case inl =>
    by_cases hwritable : s.gateWritable = true
    · exact ⟨a, d, rfl, hwritable, if_pos hwritable⟩
    · exact absurd (if_neg hwritable) hne
  all_goals exact absurd rfl hne

/-- Settles O53: the operation that changed a register is the one row that writes it, and the decoder gives that
row to the writes of its window. -/
theorem registersChangeOnlyThroughTheirWindows : Obligations.RegistersChangeOnlyThroughTheirWindows := by
  intro s t h
  refine ⟨fun hne => ?_, fun hne => ?_, fun hne => ?_, fun hne => ?_⟩
  · obtain ⟨r, rest, hpending, hexec⟩ := exec_of_step_ne State.selectedROMBank h hne
    obtain ⟨a, d, hdecode, hvalue⟩ := exec_selectedROMBank_ne hexec hne
    obtain ⟨hkind, -, hlo, hhi, rfl⟩ := window_of_write a d 0x2000 0x3FFF hdecode (by simp) rfl
    exact ⟨r, rest, hpending, hkind, hlo, hhi, hvalue ▸ romSelect_toNat _⟩
  · obtain ⟨r, rest, hpending, hexec⟩ := exec_of_step_ne State.selectedRAMBank h hne
    obtain ⟨a, d, hdecode, hvalue⟩ := exec_selectedRAMBank_ne hexec hne
    obtain ⟨hkind, -, hlo, hhi, rfl⟩ := window_of_write a d 0x4000 0x5FFF hdecode (by simp) rfl
    exact ⟨r, rest, hpending, hkind, hlo, hhi, hvalue ▸ ramSelect_toNat _⟩
  · obtain ⟨r, rest, hpending, hexec⟩ := exec_of_step_ne State.mode h hne
    obtain ⟨a, d, hdecode, hvalue⟩ := exec_mode_ne hexec hne
    obtain ⟨hkind, -, hlo, hhi, rfl⟩ := window_of_write a d 0x6000 0x7FFF hdecode (by simp) rfl
    exact ⟨r, rest, hpending, hkind, hlo, hhi, hvalue ▸ modeSelect_toNat _⟩
  · obtain ⟨r, rest, hpending, hexec⟩ := exec_of_step_ne State.ramEnabled h hne
    obtain ⟨a, d, hdecode, hwritable, hvalue⟩ := exec_ramEnabled_ne hexec hne
    obtain ⟨hkind, -, -, hhi, rfl⟩ := window_of_write a d 0x0000 0x1FFF hdecode (by simp) rfl
    obtain ⟨hram, hmode⟩ := (State.gateWritable_iff_size _).mp hwritable
    exact ⟨r, rest, hpending, hkind, hhi, hmode, hram, hvalue ▸ gateEnable_iff _⟩

end Sys2Proof.Machine

/-! ### Construction and reset (R87, R101, R102), and what every run keeps -/

namespace Sys2Proof.Machine

/-- Settles O2: construction answers the fresh controller, whose fields are the values listed. -/
theorem constructionGivesTheResetValues : Obligations.ConstructionGivesTheResetValues := by
  intro c hmultiple hminimum hlong
  have hbanks : (configOf c).bankCount * 0x4000 = c.romSize := Nat.div_mul_cancel (Nat.dvd_of_mod_eq_zero hmultiple)
  exact ⟨_, (construct_eq_next c _).mpr ⟨⟨hmultiple, hminimum, hlong⟩, rfl⟩, rfl, rfl, rfl, rfl,
    RomImage.read_ofBytes c.rom, hbanks, ramPresent_iff _, rfl, rfl, ramPresent_iff _, rfl, fun _ _ => rfl, rfl⟩

/-- Settles O3: the fault lists a precondition exactly when it fails. -/
theorem refusedConstructionListsEveryFailure : Obligations.RefusedConstructionListsEveryFailure := by
  intro c hfails
  refine ⟨_, construct_of_failed c hfails, ?_, ?_, ?_⟩ <;> rw [mem_failedPreconditions, Precondition.holds]
  · exact beq_eq_false_iff_ne
  · rw [decide_eq_false_iff_not, Nat.not_le]
  · rw [decide_eq_false_iff_not, Nat.not_le]

/-- Settles O4: the preconditions make the configuration valid, and the fresh RAM is empty. -/
theorem constructedControllerMeetsInvariant : Obligations.ConstructedControllerMeetsInvariant := by
  intro c s h
  obtain ⟨⟨hmultiple, hminimum, hlong⟩, rfl⟩ := (construct_eq_next c s).mp h
  have hvalid : (configOf c).Valid :=
    ⟨hmultiple, hminimum, hlong, Memory.wf_ofBytes c.rom, Memory.below_ofBytes c.rom⟩
  exact ⟨hvalid, ⟨List.Pairwise.nil, by simp [State.fresh]⟩, by simp [State.fresh], fun habsent => ⟨habsent, rfl⟩⟩

/-- Settles O1: the blank cartridge meets the preconditions, and its image lists no byte. -/
theorem resetIsTheConstructedDefaultCartridge : Obligations.ResetIsTheConstructedDefaultCartridge := by
  have hlength : Config.blankCartridge.rom.length = 0x10000 := List.length_replicate
  refine (construct_eq_next _ _).mpr ⟨⟨by decide, by decide, hlength.ge⟩, ?_⟩
  rw [configOf, blankCartridge_rom]
  rfl

/-- Settles O5: reset is a constructed controller. -/
theorem resetMeetsInvariant : Obligations.ResetMeetsInvariant :=
  constructedControllerMeetsInvariant _ _ resetIsTheConstructedDefaultCartridge

/-- Settles O50: construction gives both properties and every step keeps both, whatever is issued. -/
theorem everyRunKeepsInvariantAndConfiguration : Obligations.EveryRunKeepsInvariantAndConfiguration := by
  intro c s₀ s ops k hconstruct hrun
  have hstart : State.Inv { s₀ with pending := ops } := constructedControllerMeetsInvariant c s₀ hconstruct
  have hstep : ∀ s t : State, s.Inv ∧ s.cfg = s₀.cfg → step s = .next t → t.Inv ∧ t.cfg = s₀.cfg :=
    fun s t ⟨hinv, hcfg⟩ h => ⟨stepKeepsInvariant s t hinv h, (stepKeepsConfiguration s t h).trans hcfg⟩
  exact reaches_induction hstep ⟨hstart, rfl⟩ hrun

end Sys2Proof.Machine

/-! ### One step: the queue and the faults (R21, R84, R93, R95) -/

namespace Sys2Proof.Machine

/-- Settles O14. -/
theorem stepRunsTheEarliestOperation : Obligations.StepRunsTheEarliestOperation :=
  fun _ _ _ hrunning hpending => step_cons hrunning hpending

/-- Settles O15. -/
theorem stepWithNothingIssuedChangesNothing : Obligations.StepWithNothingIssuedChangesNothing :=
  fun _ hrunning hpending => step_idle hrunning hpending

/-- What was issued ahead of everything else runs next, on the state as it stood. -/
theorem step_issueFirst {s : State} (hrunning : s.machine = .running) {n : Nat} (hn : n < 2 ^ 26) :
    step (s.issueFirst n) = exec (decode (BitVec.ofNat 26 n)) s := by
  rw [State.issueFirst, if_pos hn]
  exact step_cons (s := { s with pending := _ }) (r := { word := BitVec.ofNat 26 n, host := s.host }) hrunning rfl

/-- Settles O16: a number below 2^26 has no bit above bit 25, so it is its own operation word. -/
theorem placedWordRunsNext : Obligations.PlacedWordRunsNext := by
  intro s n hrunning hn
  have hbits : n % 2 ^ 32 = n := Nat.mod_eq_of_lt (by omega)
  refine ⟨decode (BitVec.ofNat 26 n), ?_, ?_⟩
  · rw [decodeTableWord, hbits, decodeNumber, if_pos hn]
  · rw [State.withFetchWord, hbits, step_issueFirst hrunning hn]

/-- Settles O17: the fault is recorded in the machine's status, and that alone decides the next step. -/
theorem faultsAreStickyAndChangeNothing : Obligations.FaultsAreStickyAndChangeNothing := by
  intro s f more h
  rw [h, State.after_fault]
  exact ⟨rfl, step_faulted rfl⟩

end Sys2Proof.Machine

/-! ### Bus writes: idempotence, order and the whole address map (R27, R37, R108) -/

namespace Sys2Proof.Machine

theorem exec_wrRamg_writable {s : State} (hwritable : s.gateWritable = true) (a : Addr) (d : Byte) :
    exec (.wrRamg a d) s = .next { s with ramEnabled := gateEnable d, result := .nothing } := by
  rw [exec_wrRamg, if_pos hwritable]

theorem exec_wrRamg_locked {s : State} (hlocked : ¬ s.gateWritable = true) (a : Addr) (d : Byte) :
    exec (.wrRamg a d) s = .next { s with result := .nothing } := by
  rw [exec_wrRamg, if_neg hlocked]

/-- Settles O25: a write does not change the condition it tests, and storing a byte twice stores it once. -/
theorem busWritesAreIdempotent : Obligations.BusWritesAreIdempotent := by
  intro i s t hwrite h
  cases i with
  | wrRamg a d =>
    by_cases hwritable : s.gateWritable = true
    · rw [exec_wrRamg_writable hwritable] at h
      cases h
      exact exec_wrRamg_writable (s := { s with ramEnabled := gateEnable d, result := .nothing }) hwritable a d
    · rw [exec_wrRamg_locked hwritable] at h
      cases h
      exact exec_wrRamg_locked (s := { s with result := .nothing }) hwritable a d
  | wrRam a d =>
    by_cases hopen : s.ramAccessible = true
    · rw [exec_wrRam_open hopen] at h
      cases h
      have hopen' : State.ramAccessible { s.ramWrite s.ramBankSel (ramOffset a) d with result := .nothing } = true :=
        hopen
      rw [exec_wrRam_open hopen']
      exact congrArg (fun m => State.done { s with ramBanks := m } .nothing) (Memory.write_write s.ramBanks _ d)
    · rw [exec_wrRam_closed hopen] at h
      cases h
      exact exec_wrRam_closed (s := { s with result := .nothing }) hopen a d
  | wrRomb | wrRamb | wrMode | wrNop8 | wrNopC => cases h; rfl
  | rdRom0 | rdRomx | rdOpen8 | rdRam | rdC000 | rdOpenC => cases hwrite
  | saveRam | loadRam => cases hwrite

/-- Settles O27: in mode 0 the gate is locked and nothing of the write is kept; in mode 1 the same write opens or
closes it. -/
theorem gateWriteBeforeModeSelectIsLost : Obligations.GateWriteBeforeModeSelectIsLost := by
  intro s a a' d m hram hmode hm
  have hselect : modeSelect m = 1#1 := by rw [← BitVec.toNat_inj, modeSelect_toNat, hm]; rfl
  have hlocked : ¬ s.gateWritable = true := by rw [State.gateWritable_iff_size, hmode]; simp
  have hwritable : (State.gateWritable { s with mode := modeSelect m, result := .nothing }) = true :=
    (State.gateWritable_iff_size _).mpr ⟨hram, hselect⟩
  exact ⟨⟨_, _, exec_wrRamg_locked hlocked a d, exec_wrMode a' m _, hselect, rfl⟩,
    ⟨_, _, exec_wrMode a' m s, exec_wrRamg_writable hwritable a d, hselect, gateEnable_iff d⟩⟩

/-- The state after a write of `d` to any of the 65536 addresses: each target, by its window (R27). -/
def State.afterBusWrite (s : State) (a : Addr) (d : Byte) : State :=
  { s with
    ramEnabled :=
      if a.toNat < 0x2000 then (if s.gateWritable then gateEnable d else s.ramEnabled) else s.ramEnabled
    selectedROMBank := if 0x2000 ≤ a.toNat ∧ a.toNat < 0x4000 then romSelect d else s.selectedROMBank
    selectedRAMBank := if 0x4000 ≤ a.toNat ∧ a.toNat < 0x6000 then ramSelect d else s.selectedRAMBank
    mode := if 0x6000 ≤ a.toNat ∧ a.toNat < 0x8000 then modeSelect d else s.mode
    ramBanks :=
      if 0xA000 ≤ a.toNat ∧ a.toNat < 0xC000 then
        (if s.ramAccessible then Memory.write s.ramBanks (ramIndex s.ramBankSel (ramOffset a)) d else s.ramBanks)
      else s.ramBanks
    result := .nothing }

theorem exec_decodeWrite (a : Addr) (d : Byte) (s : State) :
    exec (decodeWrite a d) s = .next (s.afterBusWrite a d) := by
  obtain ⟨hhi, hrow⟩ | ⟨hlo, hhi, hrow⟩ | ⟨hlo, hhi, hrow⟩ | ⟨hlo, hhi, hrow⟩ | ⟨hlo, hhi, hrow⟩ |
    ⟨hlo, hhi, hrow⟩ | ⟨hlo, hrow⟩ := decodeWrite_cases a d <;>
    rw [hrow, State.afterBusWrite] <;> simp (disch := omega) only [if_pos, if_neg]
  · exact exec_wrRamg a d s
  · exact exec_wrRomb a d s
  · exact exec_wrRamb a d s
  · exact exec_wrMode a d s
  · exact exec_wrNop8 a d s
  · exact exec_wrRam a d s
  · exact exec_wrNopC a d s

theorem step_issuing {s : State} (hrunning : s.machine = .running) (w : Word) (h : HostOperands) :
    step (s.issuing w h) = exec (decode w) { s with pending := [], host := h } :=
  step_cons (s := s.issuing w h) (r := { word := w, host := h }) hrunning rfl

theorem State.busWrite_eq {s : State} (hrunning : s.machine = .running) (a : Addr) (d : Byte) :
    s.busWrite a d = .next (State.afterBusWrite { s with pending := [] } a d) := by
  rw [State.busWrite, step_issuing hrunning, decode_write, exec_decodeWrite]

theorem State.ramEnabled_afterBusWrite (s : State) (a : Addr) (d : Byte) :
    (s.afterBusWrite a d).ramEnabled =
      if a.toNat < 0x2000 ∧ 0 < s.cfg.ramSize ∧ s.mode = 1#1 then decide (d.toNat % 16 = 10) else s.ramEnabled := by
  have hgate : gateEnable d = decide (d.toNat % 16 = 10) := by rw [Bool.eq_iff_iff, gateEnable_iff, decide_eq_true_iff]
  simp only [State.afterBusWrite, State.gateWritable_iff_size, hgate, ← ite_and]

theorem State.ramRead_afterBusWrite (s : State) (a : Addr) (d : Byte) {b off : Nat} (hoff : off < 0x2000) :
    (s.afterBusWrite a d).ramRead b off =
      if s.ramAccessible = true ∧ b = s.ramBankSel ∧ a.toNat = 0xA000 + off then d else s.ramRead b off := by
  rw [State.ramRead, State.afterBusWrite]
  by_cases hwindow : 0xA000 ≤ a.toNat ∧ a.toNat < 0xC000
  · have hplace : off = ramOffset a ↔ a.toNat = 0xA000 + off := by unfold ramOffset; omega
    have hoffset : ramOffset a < 0x2000 := by unfold ramOffset; omega
    have hread := s.ramRead_ramWrite (b := s.ramBankSel) (b' := b) d hoffset hoff
    cases hopen : s.ramAccessible
    · simp [hwindow, State.ramRead]
    · simpa [hwindow, hplace, State.ramRead] using hread
  · have hplace : a.toNat ≠ 0xA000 + off := by omega
    simp [hwindow, hplace, State.ramRead]

/-- Settles O26: `afterBusWrite` field by field, with the data decodes as arithmetic. -/
theorem busWritesFollowTheAddressMap : Obligations.BusWritesFollowTheAddressMap := by
  intro s a d hrunning
  refine ⟨_, s.busWrite_eq hrunning a d, rfl, State.ramEnabled_afterBusWrite _ a d, ?_, ?_, ?_, fun b off _ hoff => ?_⟩
  · rw [← romSelect_toNat]
    exact apply_ite BitVec.toNat _ _ _
  · rw [← ramSelect_toNat]
    exact apply_ite BitVec.toNat _ _ _
  · rw [← modeSelect_toNat]
    exact apply_ite BitVec.toNat _ _ _
  · rw [State.ramRead_afterBusWrite _ a d hoff]
    simp only [State.ramAccessible_iff_size, and_assoc]
    rfl

end Sys2Proof.Machine

/-! ### Bus reads: the ROMX window, 0xC000 and the whole address map (R27, R68, R71, R88, R89) -/

namespace Sys2Proof.Machine

theorem exec_rdRomx_existing {s : State} (hexists : s.romBankExists = true) (a : Addr) :
    exec (.rdRomx a) s =
      .next { s with result := .byte (s.romByte (romBankOffset s.selectedROMBank.toNat (romxOffset a))) } := by
  rw [exec_rdRomx, if_pos hexists]

theorem exec_rdRomx_missing {s : State} (hmissing : ¬ s.romBankExists = true) (a : Addr) :
    exec (.rdRomx a) s = .fault (.romBankOutOfRange s.selectedROMBank s.cfg.bankCount) := by
  rw [exec_rdRomx, if_neg hmissing]

theorem exec_rdC000_open {s : State} (hopen : s.ramAccessible = true) :
    exec .rdC000 s = .fault (.ramReadPastBank 0xC000#16) := by
  rw [exec_rdC000, if_pos hopen]

theorem exec_rdC000_closed {s : State} (hclosed : ¬ s.ramAccessible = true) :
    exec .rdC000 s = .next { s with result := .byte 0x00#8 } := by
  rw [exec_rdC000, if_neg hclosed]

theorem State.romBank_missing {s : State} (h : s.cfg.romSize / 0x4000 ≤ s.selectedROMBank.toNat) :
    ¬ s.romBankExists = true := by
  rw [State.romBankExists_iff]
  exact Nat.not_lt.mpr h

/-- Settles O29. -/
theorem rdRomxReturnsTheSelectedBankByte : Obligations.RdRomxReturnsTheSelectedBankByte := by
  intro a s rom _ hrom hexists
  rw [exec_rdRomx_existing (s.romBankExists_iff.mpr hexists), State.romByte_of_ofBytes hrom]
  rfl

/-- Settles O30. -/
theorem rdRomxFaultsOnAMissingBank : Obligations.RdRomxFaultsOnAMissingBank :=
  fun a _ hmissing => exec_rdRomx_missing (State.romBank_missing hmissing) a

/-- Settles O33. -/
theorem rdC000ReturnsZeroWithRamClosed : Obligations.RdC000ReturnsZeroWithRamClosed :=
  fun s hclosed => exec_rdC000_closed (s.ramAccessible_iff_size.not.mpr hclosed)

/-- Settles O34. -/
theorem rdC000FaultsWithRamOpen : Obligations.RdC000FaultsWithRamOpen :=
  fun s hram henabled => exec_rdC000_open (s.ramAccessible_iff_size.mpr ⟨hram, henabled⟩)

/-- Settles O52: the selector has five bits, so it names one of the first 32 banks. -/
theorem thirtyTwoBanksNeverFault : Obligations.ThirtyTwoBanksNeverFault := by
  intro s a hsize
  have hselector := s.selectedROMBank.isLt
  exact ⟨_, exec_rdRomx_existing (s.romBankExists_iff.mpr (by omega)) a⟩

/-- Settles O37: the offset lies in the selected bank, which is one of the 32 at most, and not bank 0. -/
theorem romxReadsStayInTheDeclaredRom : Obligations.RomxReadsStayInTheDeclaredRom := by
  rintro s t a ⟨⟨hmultiple, hminimum, hlong, -⟩, -⟩ hwf h
  by_cases hexists : s.romBankExists = true
  · rw [exec_rdRomx_existing hexists] at h
    cases h
    obtain ⟨hlo, hhi⟩ := (inWindow_iff 0x4000 0x7FFF a).mp hwf
    have hbank := s.romBankExists_iff.mp hexists
    have hselector := s.selectedROMBank.isLt
    refine ⟨_, rfl, ?_⟩
    unfold romBankOffset romxOffset
    split_ifs <;> omega
  · rw [exec_rdRomx_missing hexists] at h
    cases h

theorem State.busRead_eq {s : State} (hrunning : s.machine = .running) (a : Addr) :
    s.busRead a = exec (decodeRead a) { s with pending := [] } := by
  rw [State.busRead, step_issuing hrunning, decode_read]

/-- The place of a ROMX byte, with selector 0 as bank 1 (D1). -/
theorem romBankOffset_eq_max (k off : Nat) : romBankOffset k off = max k 1 * 0x4000 + off := by
  unfold romBankOffset
  split_ifs <;> omega

/-- What the caller of a read is told, by the window of the address (R27). -/
theorem observe_decodeRead (a : Addr) (s : State) :
    observe (exec (decodeRead a) s) = some (
      if a.toNat < 0x4000 then .ok (.byte (s.romByte a.toNat))
      else if a.toNat < 0x8000 then
        if s.romBankExists = true then
          .ok (.byte (s.romByte (romBankOffset s.selectedROMBank.toNat (romxOffset a))))
        else .error (.romBankOutOfRange s.selectedROMBank s.cfg.bankCount)
      else if 0xA000 ≤ a.toNat ∧ a.toNat ≤ 0xC000 ∧ s.ramAccessible = true then
        if a.toNat = 0xC000 then .error (.ramReadPastBank 0xC000#16)
        else .ok (.byte (s.ramRead s.ramBankSel (ramOffset a)))
      else .ok (.byte 0x00#8)) := by
  obtain ⟨hhi, hrow⟩ | ⟨hlo, hhi, hrow⟩ | ⟨hlo, hhi, hrow⟩ | ⟨hlo, hhi, hrow⟩ | ⟨heq, hrow⟩ | ⟨hlo, hrow⟩ :=
    decodeRead_cases a <;> rw [hrow]
  · rw [if_pos hhi]
    rfl
  · rw [if_neg (by omega), if_pos hhi, exec_rdRomx]
    cases s.romBankExists <;> rfl
  · rw [if_neg (by omega), if_neg (by omega), if_neg (by omega)]
    rfl
  · by_cases hopen : s.ramAccessible = true
    · rw [exec_rdRam_open hopen, if_neg (by omega), if_neg (by omega), if_pos ⟨hlo, by omega, hopen⟩, if_neg (by omega)]
      rfl
    · rw [exec_rdRam_closed hopen, if_neg (by omega), if_neg (by omega), if_neg fun h => hopen h.2.2]
      rfl
  · by_cases hopen : s.ramAccessible = true
    · rw [exec_rdC000_open hopen, if_neg (by omega), if_neg (by omega), if_pos ⟨by omega, by omega, hopen⟩, if_pos heq]
      rfl
    · rw [exec_rdC000_closed hopen, if_neg (by omega), if_neg (by omega), if_neg fun h => hopen h.2.2]
      rfl
  · rw [if_neg (by omega), if_neg (by omega), if_neg (by omega)]
    rfl

/-- Settles O36: the map above, with its conditions and places as arithmetic. -/
theorem busReadsFollowTheAddressMap : Obligations.BusReadsFollowTheAddressMap := by
  intro s a hrunning
  have hbank : s.selectedROMBank.toNat * 0x4000 + 0x4000 ≤ s.cfg.romSize ↔ s.romBankExists = true := by
    rw [State.romBankExists_iff]
    omega
  rw [s.busRead_eq hrunning a, observe_decodeRead]
  simp only [hbank, ← State.ramAccessible_iff_size, ← romBankOffset_eq_max]
  rfl

end Sys2Proof.Machine

/-! ### Which operations fault, and what a cartridge without RAM shows (R20, R85) -/

namespace Sys2Proof.Machine

/-- Outside the two rows that can fault every operation completes. -/
theorem exec_completes (i : Instr) (s : State) :
    (∃ a, i = .rdRomx a) ∨ i = .rdC000 ∨ ∃ t, exec i s = .next t := by
  cases i with
  | rdRomx a => exact .inl ⟨a, rfl⟩
  | rdC000 => exact .inr (.inl rfl)
  | saveRam =>
    obtain ⟨-, h⟩ | ⟨-, -, h⟩ | ⟨-, _, -, h⟩ := exec_saveRam s <;> exact .inr (.inr ⟨_, h⟩)
  | loadRam =>
    obtain ⟨-, h⟩ | ⟨-, -, h⟩ | ⟨-, _, -, h⟩ | ⟨-, _, -, -, h⟩ | ⟨-, _, -, -, h⟩ := exec_loadRam s <;>
      exact .inr (.inr ⟨_, h⟩)
  | rdRom0 | rdOpen8 | rdRam | rdOpenC => exact .inr (.inr ⟨_, rfl⟩)
  | wrRamg | wrRomb | wrRamb | wrMode | wrRam | wrNop8 | wrNopC => exact .inr (.inr ⟨_, rfl⟩)

/-- Settles O51: only two rows can fault, and each tests one condition. -/
theorem operationsFaultInExactlyTwoCases : Obligations.OperationsFaultInExactlyTwoCases := by
  intro i s
  refine ⟨?_, fun hnoFault => ?_⟩
  · rintro (⟨⟨a, rfl⟩, hmissing⟩ | ⟨rfl, hram, henabled⟩)
    · exact ⟨_, rdRomxFaultsOnAMissingBank a s hmissing⟩
    · exact ⟨_, rdC000FaultsWithRamOpen s hram henabled⟩
  · obtain ⟨a, rfl⟩ | rfl | hcompletes := exec_completes i s
    · have hexists : s.romBankExists = true :=
        s.romBankExists_iff.mpr (Nat.lt_of_not_le fun hmissing => hnoFault (.inl ⟨⟨a, rfl⟩, hmissing⟩))
      exact ⟨_, exec_rdRomx_existing hexists a⟩
    · exact ⟨_, rdC000ReturnsZeroWithRamClosed s fun hopen => hnoFault (.inr ⟨rfl, hopen⟩)⟩
    · exact hcompletes

theorem State.ramAccessible_of_noRam {s : State} (h : s.cfg.ramSize = 0) : ¬ s.ramAccessible = true := by
  simp [State.ramAccessible_iff_size, h]

/-- The persistence condition fails without RAM or without a battery (R73). -/
theorem State.persist_eq_false {s : State} (h : ¬ (0 < s.cfg.ramSize ∧ s.cfg.battery = true)) : s.persist = false := by
  rwa [← State.persist_iff_size, Bool.not_eq_true] at h

theorem State.persist_of_noRam {s : State} (h : s.cfg.ramSize = 0) : s.persist = false :=
  State.persist_eq_false (by simp [h])

/-- Without RAM the gate and the multiplexer are never consulted: RAM reads answer 0x00, RAM writes are discarded
and the host operations do no work. -/
theorem observe_congr_of_noRam {s s' : State} (hcfg : s.cfg = s'.cfg) (hsel : s.selectedROMBank = s'.selectedROMBank)
    (hnoRam : s'.cfg.ramSize = 0) (i : Instr) : observe (exec i s) = observe (exec i s') := by
  have hclosed := State.ramAccessible_of_noRam (hcfg ▸ hnoRam)
  have hclosed' := State.ramAccessible_of_noRam hnoRam
  have hnoWork := State.persist_of_noRam (hcfg ▸ hnoRam)
  have hnoWork' := State.persist_of_noRam hnoRam
  cases i with
  | rdRom0 a => exact observe_rdRom0_congr a hcfg
  | rdRomx a => exact observe_rdRomx_congr a hcfg hsel
  | rdRam a => rw [exec_rdRam_closed hclosed, exec_rdRam_closed hclosed']; rfl
  | rdC000 => rw [exec_rdC000_closed hclosed, exec_rdC000_closed hclosed']; rfl
  | saveRam => rw [exec_saveRam_noWork hnoWork, exec_saveRam_noWork hnoWork']; rfl
  | loadRam => rw [exec_loadRam_noWork hnoWork, exec_loadRam_noWork hnoWork']; rfl
  | rdOpen8 | rdOpenC => rfl
  | wrRamg | wrRomb | wrRamb | wrMode | wrRam | wrNop8 | wrNopC => rfl

/-- Settles O56: the two states have one configuration and one ROM selector. -/
theorem withoutRamItsStateCannotBeObserved : Obligations.WithoutRamItsStateCannotBeObserved :=
  fun i s r g m ram hnoRam => observe_congr_of_noRam
    (s := { s with selectedRAMBank := r, ramEnabled := g, mode := m, ramBanks := ram }) (s' := s) rfl rfl hnoRam i

end Sys2Proof.Machine

/-! ### Persistence: the two host operations (R73 to R79, R91) -/

namespace Sys2Proof.Machine

/-- Settles O40: the sink is the blob, whose layout O39 gives. -/
theorem saveRamHandsOverTheBlob : Obligations.SaveRamHandsOverTheBlob := by
  intro s hram hbattery hok
  refine ⟨_, exec_saveRam_ok (s.persist_iff_size.mpr ⟨hram, hbattery⟩) hok, rfl, s.ramImage_length, ?_, rfl⟩
  intro b off hb hoff
  exact (List.getD_eq_getElem?_getD ..).trans (congrArg (Option.getD · 0#8) (s.ramImage_getElem? hb hoff))

/-- Settles O41. -/
theorem saveRamReportsTheStorageError : Obligations.SaveRamReportsTheStorageError :=
  fun s _ hram hbattery herror => ⟨_, exec_saveRam_ioError (s.persist_iff_size.mpr ⟨hram, hbattery⟩) herror, rfl, rfl⟩

/-- Settles O42. -/
theorem persistenceDoesNoWorkWithoutRamAndBattery : Obligations.PersistenceDoesNoWorkWithoutRamAndBattery :=
  fun _ h => ⟨exec_saveRam_noWork (State.persist_eq_false h), exec_loadRam_noWork (State.persist_eq_false h)⟩

/-- Settles O43: the RAM becomes the memory of the source's bytes. -/
theorem loadRamReplacesEveryByte : Obligations.LoadRamReplacesEveryByte :=
  fun s bs hram hbattery hsource hlength =>
    ⟨_, exec_loadRam_bytes (s.persist_iff_size.mpr ⟨hram, hbattery⟩) hsource hlength,
      fun b off _ _ => s.ramRead_loadRamImage bs b off, rfl⟩

/-- Settles O45. -/
theorem loadRamOfNothingChangesNothing : Obligations.LoadRamOfNothingChangesNothing := by
  intro s hram hbattery
  have hpersist := s.persist_iff_size.mpr ⟨hram, hbattery⟩
  exact ⟨exec_loadRam_absent hpersist, fun _ herror => exec_loadRam_ioError hpersist herror⟩

/-- Settles O46: the blob of a canonical RAM loads as that RAM, and equal RAMs have equal blobs. -/
theorem loadOfASaveRestoresTheRam : Obligations.LoadOfASaveRestoresTheRam := by
  rintro s₁ t₁ s₂ ⟨-, hcanonical, hbelow, -⟩ hpersist₁ hok hsave hpersist₂ hhost
  rw [exec_saveRam_ok hpersist₁ hok] at hsave
  cases hsave
  have hrestored := Memory.ofBytes_ramImage s₁ hcanonical hbelow
  have hload := exec_loadRam_bytes (bs := s₁.ramImage) hpersist₂ (by rw [hhost]) s₁.ramImage_length
  refine ⟨_, _, hload, rfl, hrestored, exec_saveRam_ok hpersist₂ (by rw [hhost]), rfl, ?_⟩
  exact State.ramImage_congr hrestored

/-- The state with other values in the four registers. -/
def State.withRegisters (s : State) (k : BitVec 5) (r : BitVec 2) (g : Bool) (m : BitVec 1) : State :=
  { s with selectedROMBank := k, selectedRAMBank := r, ramEnabled := g, mode := m }

@[simp] theorem State.withRegisters_ramImage (s : State) (k : BitVec 5) (r : BitVec 2) (g : Bool) (m : BitVec 1) :
    (s.withRegisters k r g m).ramImage = s.ramImage := State.ramImage_congr rfl

theorem exec_saveRam_withRegisters {s t : State} (h : exec .saveRam s = .next t) (k : BitVec 5) (r : BitVec 2)
    (g : Bool) (m : BitVec 1) : exec .saveRam (s.withRegisters k r g m) = .next (t.withRegisters k r g m) := by
  obtain ⟨hpersist, hexec⟩ | ⟨hpersist, hok, hexec⟩ | ⟨hpersist, _, herror, hexec⟩ := exec_saveRam s <;>
    rw [hexec] at h <;> cases h
  · exact exec_saveRam_noWork (s := s.withRegisters k r g m) hpersist
  · rw [exec_saveRam_ok (s := s.withRegisters k r g m) hpersist hok, State.withRegisters_ramImage]
    rfl
  · exact exec_saveRam_ioError (s := s.withRegisters k r g m) hpersist herror

theorem exec_loadRam_withRegisters {s t : State} (h : exec .loadRam s = .next t) (k : BitVec 5) (r : BitVec 2)
    (g : Bool) (m : BitVec 1) : exec .loadRam (s.withRegisters k r g m) = .next (t.withRegisters k r g m) := by
  obtain ⟨hpersist, hexec⟩ | ⟨hpersist, habsent, hexec⟩ | ⟨hpersist, _, herror, hexec⟩ |
    ⟨hpersist, _, hsource, hlength, hexec⟩ | ⟨hpersist, _, hsource, hlength, hexec⟩ := exec_loadRam s <;>
    rw [hexec] at h <;> cases h
  · exact exec_loadRam_noWork (s := s.withRegisters k r g m) hpersist
  · exact exec_loadRam_absent (s := s.withRegisters k r g m) hpersist habsent
  · exact exec_loadRam_ioError (s := s.withRegisters k r g m) hpersist herror
  · exact exec_loadRam_malformed (s := s.withRegisters k r g m) hpersist hsource hlength
  · exact exec_loadRam_bytes (s := s.withRegisters k r g m) hpersist hsource hlength

theorem exec_keeps_sink {i : Instr} {s t : State} (hne : i ≠ .saveRam) (h : exec i s = .next t) : t.sink = s.sink := by
  obtain ⟨_, _, -, rfl⟩ | ⟨_, _, -, rfl⟩ | ⟨_, _, -, rfl⟩ | ⟨_, _, -, rfl⟩ | ⟨_, _, -, -, rfl⟩ |
    ⟨hsave, -⟩ | ⟨-, -, _, -, -, rfl⟩ | ⟨_, rfl⟩ := exec_next_cases h
  case inr.inr.inr.inr.inr.inl => exact absurd hsave hne
  all_goals rfl

/-- Settles O47: each branch of the host operations tests the configuration and the host's operands only. -/
theorem persistenceAndBusStateAreIndependent : Obligations.PersistenceAndBusStateAreIndependent := by
  refine ⟨?_, fun _ _ _ hne h => exec_keeps_sink hne h⟩
  rintro s k r g m i t (rfl | rfl) h
  · exact exec_saveRam_withRegisters h k r g m
  · exact exec_loadRam_withRegisters h k r g m

end Sys2Proof.Machine
